-- ==== Sys2Proof/Word.lean ====
section
/-! DEFINITION. The word types: a byte of CODE and the 16-bit value of every cell (00_scope.md R6, R9). -/

namespace Sys2Proof

/-- A byte of CODE: 8 bits (20_memory.md R50). -/
abbrev Byte := BitVec 8

/-- XLEN = PCLEN = 16: a register cell, a memory cell, an immediate, a displacement, pc (00_scope.md R6, R9). -/
abbrev Word := BitVec 16

end Sys2Proof
end

