-- ==== Sys2Proof/Config.lean ====
section
/-! DEFINITION. The parameters of the block (00_scope.md R6).
There is no free value: 93_implementation_defined.md section 2 says "No behaviour is treated as `any value`". -/

namespace Sys2Proof.Config

/-- NREG, the number of register cells (R6; the spec's decision D2). -/
abbrev nreg : Nat := 16

/-- DMSIZE, the number of data-memory cells, one for each 16-bit address (R6; decision D17). -/
def dmSize : Nat := 65536

/-- The largest LEN for which the rules of the spec hold (R6, R253; decision D8). -/
def maxLen : Nat := 65535

/-- MAXILEN, the bytes of the longest instruction (R6, R85). -/
def maxInstrLen : Nat := 6

/-- What a data-memory cell that the memory does not list reads as: 0, the source's lazy default (20_memory.md R53). -/
def unlistedCell : Word := 0

end Sys2Proof.Config
end

