-- ==== Sys2Proof/Syntax.lean ====
section
/-! DEFINITION. Instructions as syntax: one constructor of `Instr` for each row of spec/opcode_table.json (30_encoding.md
R102), and the instruction record the decoder hands to the sequencer (10_state.md R35). -/

namespace Sys2Proof

/-- The width bit w (30_encoding.md R89): `byte` is w = 0, `word` is w = 1. -/
inductive Width where
  | byte
  | word
deriving DecidableEq, Repr

/-- A 3-bit register number, as an instruction carries it (30_encoding.md R90). -/
abbrev RegNum := BitVec 3

/-- The index of a register cell, 0 .. 15 (10_state.md R21). -/
abbrev RegIndex := Fin Config.nreg

/-- The eight sums of base registers that the r/m field selects, in the order 000 .. 111 (30_encoding.md R92). -/
inductive BaseRegs where
  | bxSi
  | bxDi
  | bpSi
  | bpDi
  | si
  | di
  | bp
  | bx
deriving DecidableEq, Repr

/-- The r/m operand as it is encoded: the mod field is the constructor (30_encoding.md R91, R93, R94). -/
inductive RM where
  /-- mod 11: a register, chosen by w and the r/m field. -/
  | register (n : RegNum)
  /-- mod 00, r/m ≠ 110: memory, no displacement. -/
  | noDisp (b : BaseRegs)
  /-- mod 00, r/m = 110: memory at a direct 16-bit address. -/
  | direct (addr : Word)
  /-- mod 01: memory with a signed 8-bit displacement. -/
  | disp8 (b : BaseRegs) (d : Byte)
  /-- mod 10: memory with a 16-bit displacement. -/
  | disp16 (b : BaseRegs) (d : Word)
deriving DecidableEq, Repr

/-- The thirteen instruction forms (30_encoding.md R102). `w` is the width bit, `sx` the sign-extend bit s,
`reg` the reg field, `rm` the r/m operand, `imm` the 16-bit value of the immediate (R99), `disp` the byte of format J. -/
inductive Instr where
  | movRmReg (w : Width) (reg : RegNum) (rm : RM)
  | movRegRm (w : Width) (reg : RegNum) (rm : RM)
  | movRegImm (w : Width) (reg : RegNum) (imm : Word)
  | addRmReg (w : Width) (reg : RegNum) (rm : RM)
  | addRegRm (w : Width) (reg : RegNum) (rm : RM)
  | addRmImm (sx : Bool) (w : Width) (rm : RM) (imm : Word)
  | subRmReg (w : Width) (reg : RegNum) (rm : RM)
  | subRegRm (w : Width) (reg : RegNum) (rm : RM)
  | subRmImm (sx : Bool) (w : Width) (rm : RM) (imm : Word)
  | cmpRmReg (w : Width) (reg : RegNum) (rm : RM)
  | cmpRegRm (w : Width) (reg : RegNum) (rm : RM)
  | cmpRmImm (sx : Bool) (w : Width) (rm : RM) (imm : Word)
  | jne (disp : Byte)
deriving DecidableEq, Repr

/-- The operations the ALU dispatch performs (70_reset_and_hazards.md R255). -/
inductive AluOp where
  | mov
  | add
  | sub
  | cmp
deriving DecidableEq, Repr

/-- The opcode of an instruction record: the closed enumeration of five (10_state.md R35). -/
inductive Op where
  | alu (op : AluOp)
  | jne
deriving DecidableEq, Repr

/-- The base of a memory operand: a sum of registers, or DIRECT (10_state.md R35). -/
inductive Base where
  | regs (b : BaseRegs)
  | direct
deriving DecidableEq, Repr

/-- An operand that can be written: the tags Register and Memory of 10_state.md R35. A destination has this type, so that
the two impossible calls of `WriteOperand` cannot be written down (44_sequencer.md R205). -/
inductive Place where
  | register (i : RegIndex)
  | memory (b : Base) (disp : Word)
deriving DecidableEq, Repr

/-- An operand with a value: Register, Memory or Immediate (10_state.md R35). The tag None is `Option.none` of it. -/
inductive Operand where
  | place (p : Place)
  | immediate (v : Word)
deriving DecidableEq, Repr

/-- The instruction record (10_state.md R35): the operation, two operands and the size in bytes. -/
structure InstrRecord where
  op       : Op
  operand0 : Operand
  operand1 : Option Operand
  size     : Nat
deriving DecidableEq, Repr

/-- The two ways a decode fails (40_decoder.md R120). -/
inductive DecodeError where
  /-- no pattern matched the leading bytes (R135) -/
  | unrecognizedOpcode
  /-- a byte the instruction needs lies at or past LEN (R134) -/
  | truncatedInput
deriving DecidableEq, Repr

end Sys2Proof
end

