-- ==== Sys2Proof/WellFormed.lean ====
section
/-! DEFINITION. Which terms of `Instr` have an encoding. Three checks: the r/m operand, the byte immediate of format RI and
the immediate of format MI. Register numbers and displacements are well formed by their types. -/

namespace Sys2Proof

/-- `[bp]` with no displacement has no mod 00 encoding: that slot is the direct address (30_encoding.md R94). -/
def RM.wf : RM → Bool
  | .noDisp b => b != .bp
  | .register _ => true
  | .direct _ => true
  | .disp8 _ _ => true
  | .disp16 _ _ => true

/-- Format RI: with w = 0 the immediate is one byte, zero-extended (30_encoding.md R96). -/
def immFitsRI (w : Width) (imm : Word) : Bool :=
  match w with
  | .byte => decide (imm.toNat < 256)
  | .word => true

/-- Format MI: one byte sign-extended when s = 1, one byte zero-extended when s = w = 0, two bytes else
(30_encoding.md R97). -/
def immFitsMI (sx : Bool) (w : Width) (imm : Word) : Bool :=
  match sx, w with
  | true, _ => decide (imm.toNat < 128 ∨ 65408 ≤ imm.toNat)
  | false, .byte => decide (imm.toNat < 256)
  | false, .word => true

/-- The instruction has an encoding. -/
def Instr.wf : Instr → Bool
  | .movRmReg _ _ rm => rm.wf
  | .movRegRm _ _ rm => rm.wf
  | .movRegImm w _ imm => immFitsRI w imm
  | .addRmReg _ _ rm => rm.wf
  | .addRegRm _ _ rm => rm.wf
  | .addRmImm sx w rm imm => rm.wf && immFitsMI sx w imm
  | .subRmReg _ _ rm => rm.wf
  | .subRegRm _ _ rm => rm.wf
  | .subRmImm sx w rm imm => rm.wf && immFitsMI sx w imm
  | .cmpRmReg _ _ rm => rm.wf
  | .cmpRegRm _ _ rm => rm.wf
  | .cmpRmImm sx w rm imm => rm.wf && immFitsMI sx w imm
  | .jne _ => true

end Sys2Proof
end

