-- ==== Sys2Proof/Decode.lean ====
section
/-! DEFINITION. The instruction decoder DEC (40_decoder.md), total on any bytes, then the encoder, the sizes (30_encoding.md
R85) and the opcode table (R102, R115). -/

namespace Sys2Proof

/-! ## Bytes and fields -/

/-- `sext_16` (00_scope.md R10). -/
def sext16 (b : Byte) : Word := b.signExtend 16

/-- `zext_16` (00_scope.md R10). -/
def zext16 (b : Byte) : Word := b.setWidth 16

/-- `hi ++ lo`: a two-byte field stands low byte first (20_memory.md R58). -/
def joinBytes (lo hi : Byte) : Word := hi ++ lo

/-- The low byte of a word. -/
def lowByte (v : Word) : Byte := v.extractLsb' 0 8

/-- The high byte of a word. -/
def highByte (v : Word) : Byte := v.extractLsb' 8 8

/-- The two bytes of a word, low byte first (20_memory.md R58). -/
def bytesOfWord (v : Word) : List Byte := [lowByte v, highByte v]

/-- The w bit that a width stands for (30_encoding.md R89). -/
def Width.bit : Width → BitVec 1
  | .byte => 0#1
  | .word => 1#1

/-- The width that a w bit stands for (30_encoding.md R89). -/
def widthOfBit (b : BitVec 1) : Width := if b = 1#1 then .word else .byte

/-- w in formats RM and MI: bit 0 of the first byte (30_encoding.md R86). -/
def wField (b0 : Byte) : Width := widthOfBit (b0.extractLsb' 0 1)

/-- w in format RI: bit 3 of the first byte (30_encoding.md R86). -/
def wFieldRI (b0 : Byte) : Width := widthOfBit (b0.extractLsb' 3 1)

/-- d in format RM, s in format MI: bit 1 of the first byte (30_encoding.md R86). -/
def bit1Field (b0 : Byte) : Bool := b0.extractLsb' 1 1 == 1#1

/-- reg in format RI: bits 2:0 of the first byte (30_encoding.md R86). -/
def regFieldRI (b0 : Byte) : RegNum := b0.extractLsb' 0 3

/-- mod: bits 7:6 of the addressing-mode byte (30_encoding.md R87). -/
def modField (b1 : Byte) : BitVec 2 := b1.extractLsb' 6 2

/-- reg, or the sub-opcode in format MI: bits 5:3 of the addressing-mode byte (30_encoding.md R87). -/
def regField (b1 : Byte) : BitVec 3 := b1.extractLsb' 3 3

/-- r/m: bits 2:0 of the addressing-mode byte (30_encoding.md R87). -/
def rmField (b1 : Byte) : BitVec 3 := b1.extractLsb' 0 3

/-- The base expression of an r/m field (30_encoding.md R92). -/
def baseOfBits (n : BitVec 3) : BaseRegs :=
  match n.toNat with
  | 0 => .bxSi
  | 1 => .bxDi
  | 2 => .bpSi
  | 3 => .bpDi
  | 4 => .si
  | 5 => .di
  | 6 => .bp
  | _ => .bx

/-- The r/m field of a base expression (30_encoding.md R92). -/
def BaseRegs.bits : BaseRegs → BitVec 3
  | .bxSi => 0b000#3
  | .bxDi => 0b001#3
  | .bpSi => 0b010#3
  | .bpDi => 0b011#3
  | .si => 0b100#3
  | .di => 0b101#3
  | .bp => 0b110#3
  | .bx => 0b111#3

/-! ## The byte cursor (40_decoder.md R121 to R124) -/

/-- The cursor: the buffer and a position in it (10_state.md R34). -/
structure Cursor where
  code     : List Byte
  position : Nat
deriving DecidableEq, Repr

/-- The invariant of a cursor: its position never exceeds the buffer's length (40_decoder.md R124). -/
abbrev Cursor.wf (c : Cursor) : Prop := c.position ≤ c.code.length

/-- `CodeRead(p)`; `none` is the answer EndOfInput (20_memory.md R51). -/
def codeRead (code : List Byte) (p : Nat) : Option Byte := code[p]?

/-- `peek()` (40_decoder.md R122). -/
def Cursor.peek (c : Cursor) : Option Byte := codeRead c.code c.position

/-- `next()`: the byte at the position, with the cursor moved past it; EndOfInput leaves it alone (40_decoder.md R121). -/
def Cursor.next (c : Cursor) : Option Byte × Cursor :=
  match c.peek with
  | some b => (some b, { c with position := c.position + 1 })
  | none => (none, c)

/-- `remaining()` (40_decoder.md R123). -/
def Cursor.remaining (c : Cursor) : Nat := c.code.length - c.position

/-- The bytes a cursor has still to give. The decoder below runs on this list, which is the cursor in another form
(40_decoder.md R124; Laws/Decode.lean, `Cursor.next_spec`). -/
def Cursor.rest (c : Cursor) : List Byte := c.code.drop c.position

/-! ## The decode procedure (40_decoder.md R125 to R136) -/

/-- `need()`: the next byte, or TruncatedInput (40_decoder.md R134). -/
def need : List Byte → Except DecodeError (Byte × List Byte)
  | [] => .error .truncatedInput
  | b :: bs => .ok (b, bs)

/-- A two-byte field, low byte first (20_memory.md R58). -/
def need16 (bs : List Byte) : Except DecodeError (Word × List Byte) := do
  let (lo, bs) ← need bs
  let (hi, bs) ← need bs
  .ok (joinBytes lo hi, bs)

/-- The r/m operand, with the displacement bytes it consumes (40_decoder.md R131). -/
def rmOperand (mod : BitVec 2) (rm : BitVec 3) (bs : List Byte) : Except DecodeError (RM × List Byte) :=
  if mod = 0b11#2 then .ok (.register rm, bs)
  else if mod = 0b00#2 then
    if rm = 0b110#3 then do
      let (a, bs) ← need16 bs
      .ok (.direct a, bs)
    else .ok (.noDisp (baseOfBits rm), bs)
  else if mod = 0b01#2 then do
    let (b, bs) ← need bs
    .ok (.disp8 (baseOfBits rm) b, bs)
  else do
    let (d, bs) ← need16 bs
    .ok (.disp16 (baseOfBits rm) d, bs)

/-- The row of format RM that an operation and the direction bit select (30_encoding.md R88, R102). -/
def formRM (op : AluOp) (d : Bool) (w : Width) (reg : RegNum) (rm : RM) : Instr :=
  match op, d with
  | .mov, false => .movRmReg w reg rm
  | .mov, true => .movRegRm w reg rm
  | .add, false => .addRmReg w reg rm
  | .add, true => .addRegRm w reg rm
  | .sub, false => .subRmReg w reg rm
  | .sub, true => .subRegRm w reg rm
  | .cmp, false => .cmpRmReg w reg rm
  | .cmp, true => .cmpRegRm w reg rm

/-- Format RM (40_decoder.md R126). -/
def decodeRM (op : AluOp) (b0 : Byte) (bs : List Byte) : Except DecodeError (Instr × List Byte) := do
  let (b1, bs) ← need bs
  let (rm, bs) ← rmOperand (modField b1) (rmField b1) bs
  .ok (formRM op (bit1Field b0) (wField b0) (regField b1) rm, bs)

/-- The immediate of format RI: one byte zero-extended, or two bytes (30_encoding.md R96). -/
def immRI (w : Width) (bs : List Byte) : Except DecodeError (Word × List Byte) :=
  match w with
  | .word => need16 bs
  | .byte => do
    let (b, bs) ← need bs
    .ok (zext16 b, bs)

/-- Format RI (40_decoder.md R127). -/
def decodeRI (b0 : Byte) (bs : List Byte) : Except DecodeError (Instr × List Byte) := do
  let (v, bs) ← immRI (wFieldRI b0) bs
  .ok (.movRegImm (wFieldRI b0) (regFieldRI b0) v, bs)

/-- The immediate of format MI, by s and w (30_encoding.md R97). -/
def immMI (sx : Bool) (w : Width) (bs : List Byte) : Except DecodeError (Word × List Byte) :=
  match sx, w with
  | false, .word => need16 bs
  | false, .byte => do
    let (b, bs) ← need bs
    .ok (zext16 b, bs)
  | true, _ => do
    let (b, bs) ← need bs
    .ok (sext16 b, bs)

/-- The operation that a sub-opcode of format MI selects, if any (30_encoding.md R101). -/
def subOpcode (sub : BitVec 3) : Option AluOp :=
  if sub = 0b000#3 then some .add
  else if sub = 0b101#3 then some .sub
  else if sub = 0b111#3 then some .cmp
  else none

/-- The row of format MI of an operation. MOV has none (41_mov.md R164), and `subOpcode` never gives it. -/
def formMI (op : AluOp) (sx : Bool) (w : Width) (rm : RM) (imm : Word) : Option Instr :=
  match op with
  | .mov => none
  | .add => some (.addRmImm sx w rm imm)
  | .sub => some (.subRmImm sx w rm imm)
  | .cmp => some (.cmpRmImm sx w rm imm)

/-- Format MI (40_decoder.md R128): the sub-opcode is judged before any further byte is consumed. -/
def decodeMI (b0 : Byte) (bs : List Byte) : Except DecodeError (Instr × List Byte) := do
  let (b1, bs) ← need bs
  match subOpcode (regField b1) with
  | none => .error .unrecognizedOpcode
  | some op => do
    let (rm, bs) ← rmOperand (modField b1) (rmField b1) bs
    let (v, bs) ← immMI (bit1Field b0) (wField b0) bs
    match formMI op (bit1Field b0) (wField b0) rm v with
    | none => .error .unrecognizedOpcode
    | some i => .ok (i, bs)

/-- Format J (40_decoder.md R129). -/
def decodeJ (bs : List Byte) : Except DecodeError (Instr × List Byte) := do
  let (b, bs) ← need bs
  .ok (.jne b, bs)

/-- The decoder on the bytes from the position on: an instruction and the bytes left over, or the first failure met from
left to right (40_decoder.md R125, R135, R136). -/
def decode (bs : List Byte) : Except DecodeError (Instr × List Byte) := do
  let (b0, bs) ← need bs
  if b0.extractLsb' 2 6 = 0b100010#6 then decodeRM .mov b0 bs
  else if b0.extractLsb' 4 4 = 0b1011#4 then decodeRI b0 bs
  else if b0.extractLsb' 2 6 = 0b000000#6 then decodeRM .add b0 bs
  else if b0.extractLsb' 2 6 = 0b001010#6 then decodeRM .sub b0 bs
  else if b0.extractLsb' 2 6 = 0b001110#6 then decodeRM .cmp b0 bs
  else if b0.extractLsb' 2 6 = 0b100000#6 then decodeMI b0 bs
  else if b0 = 0x75#8 then decodeJ bs
  else .error .unrecognizedOpcode

/-- `decode(CODE, LEN, pos)`: the instruction and the number of bytes the cursor advanced (40_decoder.md R120, R133). -/
def decodeAt (code : List Byte) (pos : Nat) : Except DecodeError (Instr × Nat) :=
  match decode (Cursor.rest ⟨code, pos⟩) with
  | .error e => .error e
  | .ok (i, rest) => .ok (i, (Cursor.rest ⟨code, pos⟩).length - rest.length)

/-! ## Sizes (30_encoding.md R85) -/

/-- Displacement bytes of an r/m operand (30_encoding.md R91, R93). -/
def RM.dispBytes : RM → Nat
  | .register _ => 0
  | .noDisp _ => 0
  | .direct _ => 2
  | .disp8 _ _ => 1
  | .disp16 _ _ => 2

/-- Immediate bytes of format RI (30_encoding.md R96). -/
def immBytesRI : Width → Nat
  | .byte => 1
  | .word => 2

/-- Immediate bytes of format MI (30_encoding.md R97). -/
def immBytesMI : Bool → Width → Nat
  | false, .word => 2
  | false, .byte => 1
  | true, _ => 1

/-- `encodedSize`, the length of an instruction in bytes (30_encoding.md R85). -/
def Instr.size : Instr → Nat
  | .movRmReg _ _ rm => 2 + rm.dispBytes
  | .movRegRm _ _ rm => 2 + rm.dispBytes
  | .movRegImm w _ _ => 1 + immBytesRI w
  | .addRmReg _ _ rm => 2 + rm.dispBytes
  | .addRegRm _ _ rm => 2 + rm.dispBytes
  | .addRmImm sx w rm _ => 2 + rm.dispBytes + immBytesMI sx w
  | .subRmReg _ _ rm => 2 + rm.dispBytes
  | .subRegRm _ _ rm => 2 + rm.dispBytes
  | .subRmImm sx w rm _ => 2 + rm.dispBytes + immBytesMI sx w
  | .cmpRmReg _ _ rm => 2 + rm.dispBytes
  | .cmpRegRm _ _ rm => 2 + rm.dispBytes
  | .cmpRmImm sx w rm _ => 2 + rm.dispBytes + immBytesMI sx w
  | .jne _ => 2

/-! ## The encoder -/

/-- First byte of formats RM and MI: six opcode bits, then d or s, then w (30_encoding.md R81, R83). -/
def firstByte (opcode : BitVec 6) (bit1 : Bool) (w : Width) : Byte := opcode ++ BitVec.ofBool bit1 ++ w.bit

/-- First byte of format RI: 1011, w, reg (30_encoding.md R82). -/
def firstByteRI (w : Width) (reg : RegNum) : Byte := 0b1011#4 ++ w.bit ++ reg

/-- The addressing-mode byte: mod, reg or sub-opcode, r/m (30_encoding.md R87). -/
def modeByte (mod : BitVec 2) (reg rm : BitVec 3) : Byte := mod ++ reg ++ rm

/-- The addressing-mode byte and the displacement bytes of an r/m operand (30_encoding.md R91 to R94). -/
def encodeRM (reg : BitVec 3) : RM → List Byte
  | .register n => [modeByte 0b11#2 reg n]
  | .noDisp b => [modeByte 0b00#2 reg b.bits]
  | .direct a => modeByte 0b00#2 reg 0b110#3 :: bytesOfWord a
  | .disp8 b d => [modeByte 0b01#2 reg b.bits, d]
  | .disp16 b d => modeByte 0b10#2 reg b.bits :: bytesOfWord d

/-- The immediate bytes of format RI (30_encoding.md R96). -/
def encodeImmRI (w : Width) (imm : Word) : List Byte :=
  match w with
  | .byte => [lowByte imm]
  | .word => bytesOfWord imm

/-- The immediate bytes of format MI (30_encoding.md R97). -/
def encodeImmMI (sx : Bool) (w : Width) (imm : Word) : List Byte :=
  match sx, w with
  | false, .word => bytesOfWord imm
  | false, .byte => [lowByte imm]
  | true, _ => [lowByte imm]

/-- Format RM (30_encoding.md R81). -/
def encodeFormRM (opcode : BitVec 6) (d : Bool) (w : Width) (reg : RegNum) (rm : RM) : List Byte :=
  firstByte opcode d w :: encodeRM reg rm

/-- Format MI (30_encoding.md R83): the displacement precedes the immediate (R95). -/
def encodeFormMI (sub : BitVec 3) (sx : Bool) (w : Width) (rm : RM) (imm : Word) : List Byte :=
  firstByte 0b100000#6 sx w :: (encodeRM sub rm ++ encodeImmMI sx w imm)

/-- The bytes of a well-formed instruction (30_encoding.md R81 to R84, R102). -/
def encode : Instr → List Byte
  | .movRmReg w reg rm => encodeFormRM 0b100010#6 false w reg rm
  | .movRegRm w reg rm => encodeFormRM 0b100010#6 true w reg rm
  | .movRegImm w reg imm => firstByteRI w reg :: encodeImmRI w imm
  | .addRmReg w reg rm => encodeFormRM 0b000000#6 false w reg rm
  | .addRegRm w reg rm => encodeFormRM 0b000000#6 true w reg rm
  | .addRmImm sx w rm imm => encodeFormMI 0b000#3 sx w rm imm
  | .subRmReg w reg rm => encodeFormRM 0b001010#6 false w reg rm
  | .subRegRm w reg rm => encodeFormRM 0b001010#6 true w reg rm
  | .subRmImm sx w rm imm => encodeFormMI 0b101#3 sx w rm imm
  | .cmpRmReg w reg rm => encodeFormRM 0b001110#6 false w reg rm
  | .cmpRegRm w reg rm => encodeFormRM 0b001110#6 true w reg rm
  | .cmpRmImm sx w rm imm => encodeFormMI 0b111#3 sx w rm imm
  | .jne d => [0x75#8, d]

/-! ## The opcode table (30_encoding.md R102, R115) -/

/-- A row of spec/opcode_table.json. -/
structure OpcodeRow where
  mnemonic : String
  pattern  : Word
  mask     : Word
deriving DecidableEq, Repr

/-- The row is selected by the bytes b0, b1 read as the number b0 * 256 + b1 (30_encoding.md R115). -/
def OpcodeRow.selects (r : OpcodeRow) (b0 b1 : Byte) : Bool := (b0 ++ b1 : Word) &&& r.mask == r.pattern

/-- The row of an instruction (spec/opcode_table.json). -/
def Instr.row : Instr → OpcodeRow
  | .movRmReg _ _ _ => ⟨"MOV_r_m__reg", 0x8800, 0xFE00⟩
  | .movRegRm _ _ _ => ⟨"MOV_reg__r_m", 0x8A00, 0xFE00⟩
  | .movRegImm _ _ _ => ⟨"MOV_reg__imm", 0xB000, 0xF000⟩
  | .addRmReg _ _ _ => ⟨"ADD_r_m__reg", 0x0000, 0xFE00⟩
  | .addRegRm _ _ _ => ⟨"ADD_reg__r_m", 0x0200, 0xFE00⟩
  | .addRmImm _ _ _ _ => ⟨"ADD_r_m__imm", 0x8000, 0xFC38⟩
  | .subRmReg _ _ _ => ⟨"SUB_r_m__reg", 0x2800, 0xFE00⟩
  | .subRegRm _ _ _ => ⟨"SUB_reg__r_m", 0x2A00, 0xFE00⟩
  | .subRmImm _ _ _ _ => ⟨"SUB_r_m__imm", 0x8028, 0xFC38⟩
  | .cmpRmReg _ _ _ => ⟨"CMP_r_m__reg", 0x3800, 0xFE00⟩
  | .cmpRegRm _ _ _ => ⟨"CMP_reg__r_m", 0x3A00, 0xFE00⟩
  | .cmpRmImm _ _ _ _ => ⟨"CMP_r_m__imm", 0x8038, 0xFC38⟩
  | .jne _ => ⟨"JNE_disp8", 0x7500, 0xFF00⟩

/-- The thirteen rows, in the table's order. -/
def opcodeTable : List OpcodeRow :=
  [Instr.row (.movRmReg .byte 0 (.register 0)), Instr.row (.movRegRm .byte 0 (.register 0)),
    Instr.row (.movRegImm .byte 0 0), Instr.row (.addRmReg .byte 0 (.register 0)),
    Instr.row (.addRegRm .byte 0 (.register 0)), Instr.row (.addRmImm false .byte (.register 0) 0),
    Instr.row (.subRmReg .byte 0 (.register 0)), Instr.row (.subRegRm .byte 0 (.register 0)),
    Instr.row (.subRmImm false .byte (.register 0) 0), Instr.row (.cmpRmReg .byte 0 (.register 0)),
    Instr.row (.cmpRegRm .byte 0 (.register 0)), Instr.row (.cmpRmImm false .byte (.register 0) 0),
    Instr.row (.jne 0)]

/-! ## The host's question: the instruction of a table word -/

/-- Byte k of a number, bits 8k+7 .. 8k. -/
def byteOf (v k : Nat) : Byte := BitVec.ofNat 8 (v >>> (8 * k))

/-- The six bytes (MAXILEN) that a table word of `nbits` bits stands for, in buffer order. DEDUCED (log 8): the table's
number is b0 * 256 + b1 (30_encoding.md R115), so the first byte is bits 15:8 and the second bits 7:0; later bytes count on
from bit 16, and every bit above `nbits` is 0. -/
def tableBytes (nbits w : Nat) : List Byte :=
  let v := w % 2 ^ nbits
  if nbits ≤ 8 then [byteOf v 0, 0, 0, 0, 0, 0]
  else [byteOf v 1, byteOf v 0, byteOf v 2, byteOf v 3, byteOf v 4, byteOf v 5]

/-- The instruction the decoder reads from a table word, none where it refuses. -/
def decodeTableWord (nbits w : Nat) : Option Instr :=
  match decode (tableBytes nbits w) with
  | .ok (i, _) => some i
  | .error _ => none

end Sys2Proof
end

