-- ==== Sys2Proof/Machine/State.lean ====
section
/-! DEFINITION. The state of the block, (RF, DM, FLAGS, pc, RUN) with the run's CODE (10_state.md R20, 20_memory.md R50), its
reset value (R37), and the reasons a step of the interface can stop. -/

namespace Sys2Proof.Machine

/-- FLAGS: exactly one of three values (10_state.md R28). -/
inductive Flag where
  | none
  | zero
  | sign
deriving DecidableEq, Repr

/-- The three fault codes (60_exceptions.md R220). -/
inductive FaultCode where
  | unrecognizedOpcode
  | truncatedInput
  | unsupportedOperation
deriving DecidableEq, Repr

/-- RUN (10_state.md R32). -/
inductive RunStatus where
  | running
  | halted
  | faulted (c : FaultCode)
deriving DecidableEq, Repr

/-- DM as a list of (address, 16-bit cell) pairs, addresses strictly rising, no listed cell equal to
`Config.unlistedCell`. A cell of DM is 16 bits and has no bytes (20_memory.md R52, R59; log 3). -/
abbrev Memory := List (Nat × Word)

/-- The canonical form of DM: equal memories are equal lists. -/
abbrev Memory.wf (m : Memory) : Prop :=
  m.Pairwise (fun c d => c.1 < d.1) ∧ ∀ c ∈ m, c.1 < Config.dmSize ∧ c.2 ≠ Config.unlistedCell

/-- The architectural state (10_state.md R20). `code` is the parameter CODE of the run, LEN its length (log 1). -/
structure State where
  /-- RF: sixteen 16-bit cells (R21). -/
  rf    : Vector Word Config.nreg
  /-- DM: 65536 16-bit cells (20_memory.md R52). -/
  dm    : Memory
  /-- FLAGS (R28). -/
  flags : Flag
  /-- pc (R25). -/
  pc    : Word
  /-- RUN (R32). -/
  run   : RunStatus
  /-- CODE: the instruction bytes of the run, which no step changes (20_memory.md R51). -/
  code  : List Byte
deriving DecidableEq, Repr

/-- Why a step of the interface has no next state: the run has ended (10_state.md R32 "A state with RUN ≠ `Running` has no
next step"; 93_implementation_defined.md U5 `stuck`). The block's own faults are NOT these: they are next states with
RUN = Faulted(c) (60_exceptions.md R226; log 6). -/
inductive Fault where
  /-- raised by the sequencer when RUN is Halted; safe: the spec gives no next step -/
  | runHalted
  /-- raised by the sequencer when RUN is Faulted(c); safe: the spec gives no next step -/
  | runFaulted (c : FaultCode)
deriving DecidableEq, Repr

/-- Why the model gives a step no meaning. -/
inductive Refusal where
  /-- raised by `exec` for an instruction without a meaning; no arm is left in that case; safe -/
  | notModelled (mnemonic : String)
  /-- raised by the sequencer when LEN > 65535: outside the premise of the spec (70_reset_and_hazards.md R253;
  93_implementation_defined.md U8 `refuse`; log 2); safe -/
  | codeTooLong
deriving DecidableEq, Repr

/-- The machine right after reset (10_state.md R37), before the host has supplied any CODE (log 5). -/
def State.reset : State where
  rf := Vector.replicate Config.nreg 0
  dm := []
  flags := .none
  pc := 0
  run := .running
  code := []

end Sys2Proof.Machine
end

