-- ==== Sys2Proof/Machine/Ops.lean ====
section
/-! DEFINITION. The named operations over registers, memory, pc, FLAGS and RUN; taking a fault; reset; supplying CODE. -/

namespace Sys2Proof.Machine

/-! ## Registers (10_state.md R23) -/

/-- `x[i]`. -/
def State.reg (s : State) (i : RegIndex) : Word := s.rf[i]

/-- `x[i] <- v`: no other cell changes (10_state.md R22). -/
def State.setReg (i : RegIndex) (v : Word) (s : State) : State := { s with rf := s.rf.set i v }

/-! ## Data memory (20_memory.md R52 to R54) -/

/-- The cell at an address; a cell that is not listed reads as `Config.unlistedCell` (R53). -/
def Memory.read : Memory → Nat → Word
  | [], _ => Config.unlistedCell
  | (k, v) :: m, a => if k = a then v else Memory.read m a

/-- Drop what is listed at an address. -/
def Memory.erase (m : Memory) (a : Nat) : Memory := m.filter fun c => c.1 != a

/-- List a cell before the first greater address. -/
def Memory.insert : Memory → Nat → Word → Memory
  | [], a, v => [(a, v)]
  | (k, w) :: m, a, v => if a < k then (a, v) :: (k, w) :: m else (k, w) :: Memory.insert m a v

/-- Replace the cell at an address, in canonical form: a cell that is written with what an unlisted cell reads as is not
listed. -/
def Memory.write (m : Memory) (a : Nat) (v : Word) : Memory :=
  if v = Config.unlistedCell then m.erase a else (m.erase a).insert a v

/-- `MemRead(a, 2)`: defined for every 16-bit address, never a fault (R54). -/
def State.memRead (s : State) (a : Word) : Word := s.dm.read a.toNat

/-- `MemWrite(a, 2, v)`: the whole cell and no other (R54, R55). -/
def State.memWrite (a v : Word) (s : State) : State := { s with dm := s.dm.write a.toNat v }

/-! ## FLAGS, pc, RUN -/

/-- `FLAGS <- f`: last write wins (10_state.md R29). -/
def State.setFlags (f : Flag) (s : State) : State := { s with flags := f }

/-- `pc <- t`. -/
def State.setPc (t : Word) (s : State) : State := { s with pc := t }

/-- `RUN <- r`. -/
def State.setRun (r : RunStatus) (s : State) : State := { s with run := r }

/-- `advanceInstructionPointer(delta)`: an addition modulo 65536 (10_state.md R26, 43_branch.md R192). -/
def advancePc (pc : Word) (size : Nat) : Word := pc + BitVec.ofNat 16 size

/-- `jumpInstructionPointer(delta)`: a signed delta, added modulo 65536 (10_state.md R26, 43_branch.md R192). -/
def jumpPc (pc d : Word) : Word := pc + d

/-- LEN (00_scope.md R6). -/
def State.len (s : State) : Nat := s.code.length

/-! ## Faults, end of run, reset, CODE -/

/-- The fault code that a decode error becomes (44_sequencer.md R200). -/
def faultOfDecodeError : DecodeError → FaultCode
  | .unrecognizedOpcode => .unrecognizedOpcode
  | .truncatedInput => .truncatedInput

/-- The label of a fault code (60_exceptions.md R220). -/
def FaultCode.number : FaultCode → Nat
  | .unrecognizedOpcode => 1
  | .truncatedInput => 2
  | .unsupportedOperation => 3

/-- Taking a fault (60_exceptions.md R226): RUN latches the code; RF, DM, FLAGS and pc keep the values they had before the
step. There is no return from it (R228): only reset leaves the state. -/
def takeFault (c : FaultCode) (s : State) : State := s.setRun (.faulted c)

/-- The normal end of a run (44_sequencer.md R201). -/
def haltRun (s : State) : State := s.setRun .halted

/-- The reset action on any state (70_reset_and_hazards.md R250): everything to its reset value, CODE and LEN untouched
(R252). It is the only way out of Halted and Faulted(c). -/
def State.resetAction (s : State) : State := { State.reset with code := s.code }

/-- The host supplies CODE and LEN before reset (70_reset_and_hazards.md R253). -/
def State.loadCode (code : List Byte) (s : State) : State := { s with code := code }

/-- Bytes placed where the next fetch reads, with the sequencer running. Between the end of CODE and the pc stand zero bytes.
Where LEN would pass 65535 the bytes become the whole program, at position 0 (log 9). -/
def State.placeCode (bytes : List Byte) (s : State) : State :=
  if s.pc.toNat + bytes.length ≤ Config.maxLen ∧ s.len ≤ Config.maxLen then
    { s with
      run := .running
      code := s.code.take s.pc.toNat ++ List.replicate (s.pc.toNat - s.len) 0 ++ bytes
        ++ s.code.drop (s.pc.toNat + bytes.length) }
  else { s with run := .running, pc := 0, code := bytes }

end Sys2Proof.Machine
end

