-- ==== Sys2Proof/Machine/Flags.lean ====
section
/-! DEFINITION. Flag generation (42_alu.md R170). -/

namespace Sys2Proof.Machine

/-- `SetFlagBasedOnValue(v)`, in the priority order of R170: zero, then bit 15, then None. It looks at the 16-bit value only,
whatever w is. -/
def setFlagBasedOnValue (v : Word) : Flag :=
  if v = 0 then .zero
  else if v &&& 0x8000 ≠ 0 then .sign
  else .none

end Sys2Proof.Machine
end

