-- ==== Sys2Proof/Machine/Operands.lean ====
section
/-! DEFINITION. Operands: register selection, the instruction record, the effective address, operand read and write
(10_state.md R21, R35; 40_decoder.md R130, R131, R140; 44_sequencer.md R204 to R206). -/

namespace Sys2Proof.Machine

/-! ## Register selection -/

/-- The symbolic indices of 10_state.md R21. -/
abbrev AX : RegIndex := 0
abbrev CX : RegIndex := 1
abbrev DX : RegIndex := 2
abbrev BX : RegIndex := 3
abbrev SP : RegIndex := 4
abbrev BP : RegIndex := 5
abbrev SI : RegIndex := 6
abbrev DI : RegIndex := 7
abbrev AL : RegIndex := 8
abbrev CL : RegIndex := 9
abbrev DL : RegIndex := 10
abbrev BL : RegIndex := 11
abbrev AH : RegIndex := 12
abbrev CH : RegIndex := 13
abbrev DH : RegIndex := 14
abbrev BH : RegIndex := 15

/-- `regindex(w, n)`: n for w = 1, 8 + n for w = 0 (10_state.md R21, 40_decoder.md R130). -/
def regIndex (w : Width) (n : RegNum) : RegIndex :=
  match w with
  | .word => ⟨n.toNat, Nat.lt_trans n.isLt (by decide)⟩
  | .byte => ⟨8 + n.toNat, Nat.add_lt_add_left n.isLt 8⟩

/-! ## The instruction record -/

/-- The place an r/m operand names (40_decoder.md R131): an absent displacement is 0, an 8-bit one is sign-extended
(30_encoding.md R93). -/
def rmPlace (w : Width) : RM → Place
  | .register n => .register (regIndex w n)
  | .noDisp b => .memory (.regs b) 0
  | .direct a => .memory .direct a
  | .disp8 b d => .memory (.regs b) (sext16 d)
  | .disp16 b d => .memory (.regs b) d

/-- The place of a reg field (40_decoder.md R130). -/
def regPlace (w : Width) (n : RegNum) : Place := .register (regIndex w n)

/-- The record of an ALU instruction: destination, source, size (10_state.md R35). -/
def aluRecord (op : AluOp) (dst : Place) (src : Operand) (size : Nat) : InstrRecord :=
  { op := .alu op, operand0 := .place dst, operand1 := some src, size := size }

/-- The instruction record the decoder yields for an instruction (10_state.md R35, 40_decoder.md R126 to R129). -/
def recordOf (i : Instr) : InstrRecord :=
  match i with
  | .movRmReg w reg rm => aluRecord .mov (rmPlace w rm) (.place (regPlace w reg)) i.size
  | .movRegRm w reg rm => aluRecord .mov (regPlace w reg) (.place (rmPlace w rm)) i.size
  | .movRegImm w reg imm => aluRecord .mov (regPlace w reg) (.immediate imm) i.size
  | .addRmReg w reg rm => aluRecord .add (rmPlace w rm) (.place (regPlace w reg)) i.size
  | .addRegRm w reg rm => aluRecord .add (regPlace w reg) (.place (rmPlace w rm)) i.size
  | .addRmImm _ w rm imm => aluRecord .add (rmPlace w rm) (.immediate imm) i.size
  | .subRmReg w reg rm => aluRecord .sub (rmPlace w rm) (.place (regPlace w reg)) i.size
  | .subRegRm w reg rm => aluRecord .sub (regPlace w reg) (.place (rmPlace w rm)) i.size
  | .subRmImm _ w rm imm => aluRecord .sub (rmPlace w rm) (.immediate imm) i.size
  | .cmpRmReg w reg rm => aluRecord .cmp (rmPlace w rm) (.place (regPlace w reg)) i.size
  | .cmpRegRm w reg rm => aluRecord .cmp (regPlace w reg) (.place (rmPlace w rm)) i.size
  | .cmpRmImm _ w rm imm => aluRecord .cmp (rmPlace w rm) (.immediate imm) i.size
  | .jne d => { op := .jne, operand0 := .immediate (sext16 d), operand1 := none, size := i.size }

/-! ## Effective address (40_decoder.md R140) -/

/-- The sum of the base registers, modulo 65536 (30_encoding.md R92). -/
def baseSum (b : BaseRegs) (s : State) : Word :=
  match b with
  | .bxSi => s.reg BX + s.reg SI
  | .bxDi => s.reg BX + s.reg DI
  | .bpSi => s.reg BP + s.reg SI
  | .bpDi => s.reg BP + s.reg DI
  | .si => s.reg SI
  | .di => s.reg DI
  | .bp => s.reg BP
  | .bx => s.reg BX

/-- `EA(Memory(b, disp))`, the DM address itself: no segment (20_memory.md R62). -/
def effectiveAddress (b : Base) (disp : Word) (s : State) : Word :=
  match b with
  | .regs r => baseSum r s + disp
  | .direct => disp

/-! ## Operand access (44_sequencer.md R204 to R206) -/

/-- A place with its address computed: stage 3 of 44_sequencer.md R202 computes it once, for the read and the write. -/
inductive Loc where
  | reg (i : RegIndex)
  | cell (a : Word)
deriving DecidableEq, Repr

/-- Compute the effective address of a memory place on the state before the instruction (R206). -/
def locOf (p : Place) (s : State) : Loc :=
  match p with
  | .register i => .reg i
  | .memory b d => .cell (effectiveAddress b d s)

/-- The value at a location. -/
def readLoc (l : Loc) (s : State) : Word :=
  match l with
  | .reg i => s.reg i
  | .cell a => s.memRead a

/-- `WriteOperand` on a resolved place (R205): it never faults. -/
def writeLoc (l : Loc) (v : Word) (s : State) : State :=
  match l with
  | .reg i => s.setReg i v
  | .cell a => s.memWrite a v

/-- `ReadOperand` (R204): it never faults and has no side effect. -/
def readOperand (o : Operand) (s : State) : Word :=
  match o with
  | .place p => readLoc (locOf p s) s
  | .immediate v => v

end Sys2Proof.Machine
end

