-- ==== Sys2Proof/Machine/Datapath.lean ====
section
/-! DEFINITION. The ALU dispatch and the common semantics of MOV, ADD, SUB and CMP (41_mov.md R163, 42_alu.md R171, R172,
70_reset_and_hazards.md R255, 44_sequencer.md R202, R203). -/

namespace Sys2Proof.Machine

/-- What the ALU hands back to the sequencer (70_reset_and_hazards.md R255): the result, the write-back enable, and the new
flag value where the flag-write enable is set. -/
structure AluResult where
  result    : Word
  writeBack : Bool
  newFlag   : Option Flag
deriving DecidableEq, Repr

/-- The ALU dispatch: 16-bit wraparound arithmetic for every form (42_alu.md R171); CMP never writes back (R172); MOV updates
no flag (41_mov.md R163). -/
def alu (op : AluOp) (lhs rhs : Word) : AluResult :=
  match op with
  | .mov => { result := rhs, writeBack := true, newFlag := none }
  | .add => { result := lhs + rhs, writeBack := true, newFlag := some (setFlagBasedOnValue (lhs + rhs)) }
  | .sub => { result := lhs - rhs, writeBack := true, newFlag := some (setFlagBasedOnValue (lhs - rhs)) }
  | .cmp => { result := lhs - rhs, writeBack := false, newFlag := some (setFlagBasedOnValue (lhs - rhs)) }

/-- The destination is written where write-back is enabled: not by CMP (42_alu.md R172). -/
def writeResult (l : Loc) (r : AluResult) (s : State) : State := if r.writeBack then writeLoc l r.result s else s

/-- FLAGS is replaced where the ALU gives a new value: not by MOV (10_state.md R29). -/
def writeNewFlag (r : AluResult) (s : State) : State :=
  match r.newFlag with
  | some f => s.setFlags f
  | none => s

/-- Commit: the destination cell, FLAGS and pc become the state together (44_sequencer.md R203). -/
def commit (l : Loc) (r : AluResult) (pcadv : Word) (s : State) : State :=
  (writeNewFlag r (writeResult l r s)).setPc pcadv

/-- The common semantics of MOV (41_mov.md R163) and of ADD, SUB and CMP (42_alu.md R172): all reads happen on the state
before the instruction, the effective address is computed once, then the one write (44_sequencer.md R206). -/
def aluStep (op : AluOp) (dst : Place) (src : Operand) (size : Nat) (s : State) : State :=
  commit (locOf dst s) (alu op (readLoc (locOf dst s) s) (readOperand src s)) (advancePc s.pc size) s

end Sys2Proof.Machine
end

