-- ==== Sys2Proof/Machine/Add.lean ====
section
/-! DEFINITION. The ADD forms (42_alu.md section 4). -/

namespace Sys2Proof.Machine

/-- ADD r/m, reg (42_alu.md R173). -/
def execAddRmReg (w : Width) (reg : RegNum) (rm : RM) (s : State) : Host.Outcome State Fault Refusal :=
  .next (aluStep .add (rmPlace w rm) (.place (regPlace w reg)) (Instr.addRmReg w reg rm).size s)

/-- ADD reg, r/m (42_alu.md R174). -/
def execAddRegRm (w : Width) (reg : RegNum) (rm : RM) (s : State) : Host.Outcome State Fault Refusal :=
  .next (aluStep .add (regPlace w reg) (.place (rmPlace w rm)) (Instr.addRegRm w reg rm).size s)

/-- ADD r/m, imm (42_alu.md R175). -/
def execAddRmImm (sx : Bool) (w : Width) (rm : RM) (imm : Word) (s : State) : Host.Outcome State Fault Refusal :=
  .next (aluStep .add (rmPlace w rm) (.immediate imm) (Instr.addRmImm sx w rm imm).size s)

end Sys2Proof.Machine
end

