-- ==== Sys2Proof/Machine/Branch.lean ====
section
/-! DEFINITION. The conditional branch resolver BRU and JNE (43_branch.md). -/

namespace Sys2Proof.Machine

/-- `taken(f)`: every flag value but Zero (43_branch.md R191). -/
def branchTaken (f : Flag) : Bool := f != .zero

/-- `nextpc(f, pcadv, d)`, from the already advanced pointer (43_branch.md R191). -/
def nextPc (f : Flag) (pcadv d : Word) : Word := if branchTaken f then jumpPc pcadv d else pcadv

/-- JNE disp8 (43_branch.md R190): FLAGS, registers and memory are unaffected; the target is not checked (R193). -/
def execJne (disp : Byte) (s : State) : Host.Outcome State Fault Refusal :=
  .next (s.setPc (nextPc s.flags (advancePc s.pc (Instr.jne disp).size) (sext16 disp)))

end Sys2Proof.Machine
end

