-- ==== Sys2Proof/Machine/Cmp.lean ====
section
/-! DEFINITION. The CMP forms (42_alu.md section 6). -/

namespace Sys2Proof.Machine

/-- CMP r/m, reg (42_alu.md R179). -/
def execCmpRmReg (w : Width) (reg : RegNum) (rm : RM) (s : State) : Host.Outcome State Fault Refusal :=
  .next (aluStep .cmp (rmPlace w rm) (.place (regPlace w reg)) (Instr.cmpRmReg w reg rm).size s)

/-- CMP reg, r/m (42_alu.md R180). -/
def execCmpRegRm (w : Width) (reg : RegNum) (rm : RM) (s : State) : Host.Outcome State Fault Refusal :=
  .next (aluStep .cmp (regPlace w reg) (.place (rmPlace w rm)) (Instr.cmpRegRm w reg rm).size s)

/-- CMP r/m, imm (42_alu.md R181). -/
def execCmpRmImm (sx : Bool) (w : Width) (rm : RM) (imm : Word) (s : State) : Host.Outcome State Fault Refusal :=
  .next (aluStep .cmp (rmPlace w rm) (.immediate imm) (Instr.cmpRmImm sx w rm imm).size s)

end Sys2Proof.Machine
end

