-- ==== Sys2Proof/Machine/Mov.lean ====
section
/-! DEFINITION. The MOV family (41_mov.md). -/

namespace Sys2Proof.Machine

/-- MOV r/m, reg (41_mov.md R160). -/
def execMovRmReg (w : Width) (reg : RegNum) (rm : RM) (s : State) : Host.Outcome State Fault Refusal :=
  .next (aluStep .mov (rmPlace w rm) (.place (regPlace w reg)) (Instr.movRmReg w reg rm).size s)

/-- MOV reg, r/m (41_mov.md R161). -/
def execMovRegRm (w : Width) (reg : RegNum) (rm : RM) (s : State) : Host.Outcome State Fault Refusal :=
  .next (aluStep .mov (regPlace w reg) (.place (rmPlace w rm)) (Instr.movRegRm w reg rm).size s)

/-- MOV reg, imm (41_mov.md R162). -/
def execMovRegImm (w : Width) (reg : RegNum) (imm : Word) (s : State) : Host.Outcome State Fault Refusal :=
  .next (aluStep .mov (regPlace w reg) (.immediate imm) (Instr.movRegImm w reg imm).size s)

end Sys2Proof.Machine
end

