-- ==== Sys2Proof/Machine/Sub.lean ====
section
/-! DEFINITION. The SUB forms (42_alu.md section 5). -/

namespace Sys2Proof.Machine

/-- SUB r/m, reg (42_alu.md R176). -/
def execSubRmReg (w : Width) (reg : RegNum) (rm : RM) (s : State) : Host.Outcome State Fault Refusal :=
  .next (aluStep .sub (rmPlace w rm) (.place (regPlace w reg)) (Instr.subRmReg w reg rm).size s)

/-- SUB reg, r/m (42_alu.md R177). -/
def execSubRegRm (w : Width) (reg : RegNum) (rm : RM) (s : State) : Host.Outcome State Fault Refusal :=
  .next (aluStep .sub (regPlace w reg) (.place (rmPlace w rm)) (Instr.subRegRm w reg rm).size s)

/-- SUB r/m, imm (42_alu.md R178). -/
def execSubRmImm (sx : Bool) (w : Width) (rm : RM) (imm : Word) (s : State) : Host.Outcome State Fault Refusal :=
  .next (aluStep .sub (rmPlace w rm) (.immediate imm) (Instr.subRmImm sx w rm imm).size s)

end Sys2Proof.Machine
end

