-- ==== Sys2Proof/Machine/Dispatch.lean ====
section
/-! DEFINITION. Dispatch of a decoded instruction to its meaning (44_sequencer.md R200): one arm per row of the table. -/

namespace Sys2Proof.Machine

def exec (i : Instr) (s : State) : Host.Outcome State Fault Refusal :=
  match i with
  | .movRmReg w reg rm => Sys2Proof.Machine.execMovRmReg w reg rm s
  | .movRegRm w reg rm => Sys2Proof.Machine.execMovRegRm w reg rm s
  | .movRegImm w reg imm => Sys2Proof.Machine.execMovRegImm w reg imm s
  | .addRmReg w reg rm => Sys2Proof.Machine.execAddRmReg w reg rm s
  | .addRegRm w reg rm => Sys2Proof.Machine.execAddRegRm w reg rm s
  | .addRmImm sx w rm imm => Sys2Proof.Machine.execAddRmImm sx w rm imm s
  | .subRmReg w reg rm => Sys2Proof.Machine.execSubRmReg w reg rm s
  | .subRegRm w reg rm => Sys2Proof.Machine.execSubRegRm w reg rm s
  | .subRmImm sx w rm imm => Sys2Proof.Machine.execSubRmImm sx w rm imm s
  | .cmpRmReg w reg rm => Sys2Proof.Machine.execCmpRmReg w reg rm s
  | .cmpRegRm w reg rm => Sys2Proof.Machine.execCmpRegRm w reg rm s
  | .cmpRmImm sx w rm imm => Sys2Proof.Machine.execCmpRmImm sx w rm imm s
  | .jne disp => Sys2Proof.Machine.execJne disp s

end Sys2Proof.Machine
end

