-- ==== Sys2Proof/Machine/Sequencer.lean ====
section
/-! DEFINITION. The sequencer SEQ: fetch and the step function (44_sequencer.md R200, R201, R207). -/

namespace Sys2Proof.Machine

/-- The executable operations: MOV, ADD, SUB, CMP and JNE (44_sequencer.md R207). The enumeration of the spec is closed at
these five (10_state.md R35), so the test never fails. -/
def executable : Op → Bool
  | .alu .mov => true
  | .alu .add => true
  | .alu .sub => true
  | .alu .cmp => true
  | .jne => true

/-- Decode at the pc (44_sequencer.md R200). -/
def fetch (s : State) : Except DecodeError (Instr × Nat) := decodeAt s.code s.pc.toNat

/-- One step with RUN = Running and LEN within the premise: the loop test, then decode, dispatch and execute
(44_sequencer.md R200, R201). A decode error is taken as a fault, which is a next state (60_exceptions.md R226). -/
def runningStep (s : State) : Host.Outcome State Fault Refusal :=
  if s.len ≤ s.pc.toNat then .next (haltRun s)
  else
    match fetch s with
    | .error e => .next (takeFault (faultOfDecodeError e) s)
    | .ok (i, _) =>
      if executable (recordOf i).op then exec i s
      else .next (takeFault .unsupportedOperation s)

/-- One step. A state with RUN ≠ Running has no next step (10_state.md R32, 44_sequencer.md R213; log 6); a CODE with
LEN > 65535 is outside the premise (93_implementation_defined.md U8; log 2). -/
def sequencerStep (s : State) : Host.Outcome State Fault Refusal :=
  match s.run with
  | .halted => .fault .runHalted
  | .faulted c => .fault (.runFaulted c)
  | .running => if Config.maxLen < s.len then .refused .codeTooLong else runningStep s

end Sys2Proof.Machine
end

