-- ==== Sys2Proof/Machine/Step.lean ====
section
/-! DEFINITION. The step of the interface, and where its next instruction is placed. -/

namespace Sys2Proof.Machine

/-- One step of the machine (44_sequencer.md R200). -/
def step (s : State) : Host.Outcome State Fault Refusal := sequencerStep s

/-- The state with a table word's instruction where `step` fetches next (log 8, 9): the host's load of it (log 5). -/
def State.withFetchWord (s : State) (nbits w : Nat) : State := s.placeCode (tableBytes nbits w)

end Sys2Proof.Machine
end

