-- ==== Sys2Proof/Machine/Trace.lean ====
section
/-! DEFINITION. What the host reads: the step record and the final-state snapshot (44_sequencer.md R210, R211, R214). They are
outputs, functions of the state; no step reads them. -/

namespace Sys2Proof.Machine

/-- The step record (44_sequencer.md R210). `destBefore` and `destAfter` are absent for JNE. -/
structure StepRecord where
  instr       : InstrRecord
  destBefore  : Option Word
  destAfter   : Option Word
  flagsBefore : Flag
  flagsAfter  : Flag
  pcBefore    : Word
  pcAfter     : Word
deriving DecidableEq, Repr

/-- The instruction that the next step executes: none when the step only halts, faults or does not exist
(44_sequencer.md R211). -/
def nextInstr (s : State) : Option Instr :=
  if s.run = .running ∧ s.len ≤ Config.maxLen ∧ s.pc.toNat < s.len then
    match fetch s with
    | .ok (i, _) => if executable (recordOf i).op then some i else none
    | .error _ => none
  else none

/-- The destination of a record, its address computed on the state before the step (44_sequencer.md R202, R206). -/
def destOf (r : InstrRecord) (s : State) : Option Loc :=
  match r.operand0 with
  | .place p => some (locOf p s)
  | .immediate _ => none

/-- The record of executing `i` from `s` to `t`. -/
def recordStep (i : Instr) (s t : State) : StepRecord where
  instr := recordOf i
  destBefore := (destOf (recordOf i) s).map fun l => readLoc l s
  destAfter := (destOf (recordOf i) s).map fun l => readLoc l t
  flagsBefore := s.flags
  flagsAfter := t.flags
  pcBefore := s.pc
  pcAfter := t.pc

/-- The step record that the next step emits: none when the step only sets RUN <- Halted or faults (44_sequencer.md R211). -/
def State.stepRecord (s : State) : Option StepRecord :=
  match nextInstr s, step s with
  | some i, .next t => some (recordStep i s t)
  | _, _ => none

/-- The final-state snapshot (44_sequencer.md R214). -/
structure Snapshot where
  nonZeroRegs : List (RegIndex × Word)
  pc          : Word
  flags       : Flag
deriving DecidableEq, Repr

/-- The non-zero registers, pc and FLAGS (44_sequencer.md R214). -/
def State.snapshot (s : State) : Snapshot where
  nonZeroRegs := ((List.finRange Config.nreg).map fun i => (i, s.reg i)).filter fun p => p.2 != 0
  pc := s.pc
  flags := s.flags

end Sys2Proof.Machine
end

