-- ==== Sys2Proof/Machine/Run.lean ====
section
/-! DEFINITION. A run under fuel (44_sequencer.md R200; 43_branch.md R194 "A model runs the block under fuel"). -/

namespace Sys2Proof.Machine

/-- At most `fuel` steps, stopping when RUN ≠ Running (44_sequencer.md R200, R212) or where step has no next state. -/
def runFuel : Nat → State → State
  | 0, s => s
  | n + 1, s =>
    match step s with
    | .next t => runFuel n t
    | .fault _ => s
    | .refused _ => s

/-- The step records of at most `fuel` steps, in order (44_sequencer.md R211). -/
def runRecords : Nat → State → List StepRecord
  | 0, _ => []
  | n + 1, s =>
    match step s with
    | .next t => s.stepRecord.toList ++ runRecords n t
    | .fault _ => []
    | .refused _ => []

/-- The run of a program from reset (70_reset_and_hazards.md R250, R253): the host supplies CODE, then applies reset. -/
def startOf (code : List Byte) : State := (State.reset.loadCode code).resetAction

end Sys2Proof.Machine
end

