-- ==== Sys2Proof/Safety.lean ====
section
/-! DEFINITION. The terms that claims are stated in: the invariant of the machine, a successful end, what an instruction
writes, what an instruction leaves unchanged, and which bytes spell which operand. -/

namespace Sys2Proof.Machine

/-- The invariant of the machine: DM is in canonical form (log 3), LEN is within the premise (70_reset_and_hazards.md R253),
and RUN is not Faulted(UnsupportedOperation), which no byte sequence raises (60_exceptions.md R223). -/
abbrev State.Inv (s : State) : Prop :=
  s.dm.wf ∧ s.len ≤ Config.maxLen ∧ s.run ≠ .faulted .unsupportedOperation

/-- A run has ended (44_sequencer.md R212). -/
abbrev State.ended (s : State) : Prop := s.run ≠ .running

/-- A successful end: Halted, never Faulted (44_sequencer.md R213). -/
abbrev State.succeeded (s : State) : Prop := s.run = .halted

/-- The sequencer takes a step: RUN = Running, LEN within the premise. -/
abbrev State.ready (s : State) : Prop := s.run = .running ∧ s.len ≤ Config.maxLen

/-- The location an instruction writes, its address computed by `locOf`, the function the meanings use, on the state before
the instruction. CMP and JNE write none (42_alu.md R172, 43_branch.md R190). -/
def writtenLoc (i : Instr) (s : State) : Option Loc :=
  match i with
  | .movRmReg w _ rm => some (locOf (rmPlace w rm) s)
  | .movRegRm w reg _ => some (.reg (regIndex w reg))
  | .movRegImm w reg _ => some (.reg (regIndex w reg))
  | .addRmReg w _ rm => some (locOf (rmPlace w rm) s)
  | .addRegRm w reg _ => some (.reg (regIndex w reg))
  | .addRmImm _ w rm _ => some (locOf (rmPlace w rm) s)
  | .subRmReg w _ rm => some (locOf (rmPlace w rm) s)
  | .subRegRm w reg _ => some (.reg (regIndex w reg))
  | .subRmImm _ w rm _ => some (locOf (rmPlace w rm) s)
  | .cmpRmReg _ _ _ => none
  | .cmpRegRm _ _ _ => none
  | .cmpRmImm _ _ _ _ => none
  | .jne _ => none

/-- The width bit an instruction carries; JNE has none. -/
def widthOf : Instr → Option Width
  | .movRmReg w _ _ => some w
  | .movRegRm w _ _ => some w
  | .movRegImm w _ _ => some w
  | .addRmReg w _ _ => some w
  | .addRegRm w _ _ => some w
  | .addRmImm _ w _ _ => some w
  | .subRmReg w _ _ => some w
  | .subRegRm w _ _ => some w
  | .subRmImm _ w _ _ => some w
  | .cmpRmReg w _ _ => some w
  | .cmpRegRm w _ _ => some w
  | .cmpRmImm _ w _ _ => some w
  | .jne _ => none

/-- From `s` to `t` every register cell and every memory cell but `dest` is unchanged, and so are RUN and CODE. -/
def FrameExcept (dest : Option Loc) (s t : State) : Prop :=
  (∀ i : RegIndex, dest ≠ some (.reg i) → t.reg i = s.reg i) ∧
  (∀ a : Word, dest ≠ some (.cell a) → t.memRead a = s.memRead a) ∧
  t.run = s.run ∧ t.code = s.code

/-- The pc moved on by `size` bytes, modulo 65536 (10_state.md R26). -/
def PcAdvanced (size : Nat) (s t : State) : Prop := t.pc.toNat = (s.pc.toNat + size) % 65536

/-- `t` is `s` after MOV wrote `v` to `l`: FLAGS as before (41_mov.md R163). -/
def MovEffect (l : Loc) (v : Word) (size : Nat) (s t : State) : Prop :=
  readLoc l t = v ∧ FrameExcept (some l) s t ∧ t.flags = s.flags ∧ PcAdvanced size s t

/-- `t` is `s` after ADD of `rhs` to `l` (42_alu.md R172). -/
def AddEffect (l : Loc) (rhs : Word) (size : Nat) (s t : State) : Prop :=
  (readLoc l t).toNat = ((readLoc l s).toNat + rhs.toNat) % 65536 ∧
  t.flags = setFlagBasedOnValue (readLoc l t) ∧ FrameExcept (some l) s t ∧ PcAdvanced size s t

/-- `t` is `s` after SUB of `rhs` from `l` (42_alu.md R172). -/
def SubEffect (l : Loc) (rhs : Word) (size : Nat) (s t : State) : Prop :=
  (readLoc l t).toNat = ((readLoc l s).toNat + 65536 - rhs.toNat) % 65536 ∧
  t.flags = setFlagBasedOnValue (readLoc l t) ∧ FrameExcept (some l) s t ∧ PcAdvanced size s t

/-- `t` is `s` after CMP of `lhs` with `rhs`: only FLAGS and pc change (42_alu.md R172). -/
def CmpEffect (lhs rhs : Word) (size : Nat) (s t : State) : Prop :=
  (∃ r : Word, r.toNat = (lhs.toNat + 65536 - rhs.toNat) % 65536 ∧ t.flags = setFlagBasedOnValue r) ∧
  FrameExcept none s t ∧ PcAdvanced size s t

/-! ## Operand bytes, from the spec's tables and not from the decoder -/

/-- The base expression of each r/m number, for mod 01 and 10, and for mod 00 but 110 (30_encoding.md R92). -/
def baseTable : List (BitVec 3 × BaseRegs) :=
  [(0b000#3, .bxSi), (0b001#3, .bxDi), (0b010#3, .bpSi), (0b011#3, .bpDi),
    (0b100#3, .si), (0b101#3, .di), (0b110#3, .bp), (0b111#3, .bx)]

/-- `v` is the two bytes `hi ++ lo` (20_memory.md R58). -/
def WordOf (lo hi : Byte) (v : Word) : Prop := v.toNat = hi.toNat * 256 + lo.toNat

/-- `bs` are an addressing-mode byte with `reg` in its middle field and the displacement bytes it asks for, and `p` is the
operand they spell (30_encoding.md R87, R91 to R94; 40_decoder.md R131). -/
def RmBytes (w : Width) (reg : BitVec 3) (bs : List Byte) (p : Place) : Prop :=
  ∃ n : BitVec 3,
    (bs = [(0b11#2 ++ reg ++ n : Byte)] ∧ p = .register (regIndex w n)) ∨
    (n = 0b110#3 ∧ ∃ (lo hi : Byte) (v : Word), WordOf lo hi v ∧
      bs = [(0b00#2 ++ reg ++ n : Byte), lo, hi] ∧ p = .memory .direct v) ∨
    ∃ b : BaseRegs, (n, b) ∈ baseTable ∧
      ((n ≠ 0b110#3 ∧ bs = [(0b00#2 ++ reg ++ n : Byte)] ∧ p = .memory (.regs b) 0) ∨
       (∃ (d : Byte) (v : Word), v.toInt = d.toInt ∧
          bs = [(0b01#2 ++ reg ++ n : Byte), d] ∧ p = .memory (.regs b) v) ∨
       (∃ (lo hi : Byte) (v : Word), WordOf lo hi v ∧
          bs = [(0b10#2 ++ reg ++ n : Byte), lo, hi] ∧ p = .memory (.regs b) v))

/-- `bs` are the immediate bytes of format RI and `v` their value (30_encoding.md R96). -/
def ImmBytesRI (w : Width) (bs : List Byte) (v : Word) : Prop :=
  match w with
  | .byte => ∃ b : Byte, bs = [b] ∧ v.toNat = b.toNat
  | .word => ∃ lo hi : Byte, bs = [lo, hi] ∧ WordOf lo hi v

/-- `bs` are the immediate bytes of format MI and `v` their value (30_encoding.md R97): with s = 1 one byte, sign-extended;
else as in format RI. -/
def ImmBytesMI (sx : Bool) (w : Width) (bs : List Byte) (v : Word) : Prop :=
  if sx then ∃ b : Byte, bs = [b] ∧ v.toInt = b.toInt else ImmBytesRI w bs v

end Sys2Proof.Machine
end

