-- ==== Sys2Proof/Certificates/Slice0/Obligations.lean ====
section
/-! DEFINITION. The statements for the provers. -/

section

open Sys2Proof Sys2Proof.Machine

/-! ## Flags and arithmetic -/

/-- 42_alu.md R170: exactly one flag, by the 16-bit value alone. -/
def Obligations.FlagOfValueRule : Prop :=
  ∀ v : Word,
    (setFlagBasedOnValue v = .zero ↔ v.toNat = 0) ∧
    (setFlagBasedOnValue v = .sign ↔ 32768 ≤ v.toNat) ∧
    (setFlagBasedOnValue v = .none ↔ 0 < v.toNat ∧ v.toNat < 32768)

/-- 42_alu.md section 2 and 70_reset_and_hazards.md section 3: what the ALU dispatch hands back, in exact arithmetic. -/
def Obligations.AluDispatchResults : Prop :=
  ∀ lhs rhs : Word,
    alu .mov lhs rhs = ⟨rhs, true, none⟩ ∧
    (∃ r : Word, r.toNat = (lhs.toNat + rhs.toNat) % 65536 ∧
      alu .add lhs rhs = ⟨r, true, some (setFlagBasedOnValue r)⟩) ∧
    (∃ r : Word, r.toNat = (lhs.toNat + 65536 - rhs.toNat) % 65536 ∧
      alu .sub lhs rhs = ⟨r, true, some (setFlagBasedOnValue r)⟩ ∧
      alu .cmp lhs rhs = ⟨r, false, some (setFlagBasedOnValue r)⟩)

/-! ## Registers, operands, memory -/

/-- 10_state.md section 2 (the spec's decisions D2 and D3): register selection, and a register write changes no other cell
and nothing else. -/
def Obligations.RegisterCellsAreIndependent : Prop :=
  (∀ n : RegNum, (regIndex .word n).val = n.toNat ∧ (regIndex .byte n).val = 8 + n.toNat) ∧
  (∀ (i j : RegIndex) (v : Word) (s : State),
    (s.setReg i v).reg i = v ∧ (j ≠ i → (s.setReg i v).reg j = s.reg j)) ∧
  (∀ (i : RegIndex) (v : Word) (s : State),
    (s.setReg i v).dm = s.dm ∧ (s.setReg i v).flags = s.flags ∧ (s.setReg i v).pc = s.pc ∧
    (s.setReg i v).run = s.run ∧ (s.setReg i v).code = s.code)

/-- 40_decoder.md sections 4 and 8, 30_encoding.md section 2 (the spec's decisions D12 and D13), in exact arithmetic: the
effective address of each base expression with a 16-bit displacement, and the location that each r/m operand names: a
register, the direct address, or the cell at the sum of the base registers and the displacement, which is absent, one signed
byte, or a word. -/
def Obligations.EffectiveAddressSums : Prop :=
  ∀ (w : Width) (n : RegNum) (d : Byte) (disp : Word) (s : State),
    let x := fun i => (s.reg i).toNat
    (effectiveAddress .direct disp s = disp ∧ locOf (rmPlace w (.direct disp)) s = .cell disp ∧
      locOf (rmPlace w (.register n)) s = .reg (regIndex w n)) ∧
    ∀ (b : BaseRegs) (sum : Nat),
      (b, sum) ∈ [(BaseRegs.bxSi, x BX + x SI), (.bxDi, x BX + x DI), (.bpSi, x BP + x SI), (.bpDi, x BP + x DI),
        (.si, x SI), (.di, x DI), (.bp, x BP), (.bx, x BX)] →
      (effectiveAddress (.regs b) disp s).toNat = (sum + disp.toNat) % 65536 ∧
      (∃ a : Word, locOf (rmPlace w (.noDisp b)) s = .cell a ∧ a.toNat = sum % 65536) ∧
      (∃ a : Word, locOf (rmPlace w (.disp8 b d)) s = .cell a ∧ (a.toNat : Int) = (sum + d.toInt) % 65536) ∧
      (∃ a : Word, locOf (rmPlace w (.disp16 b disp)) s = .cell a ∧ a.toNat = (sum + disp.toNat) % 65536)

/-- 44_sequencer.md R204: what reading each kind of operand gives; and what writing a location does (section 2). -/
def Obligations.OperandAccess : Prop :=
  (∀ (i : RegIndex) (b : Base) (d v : Word) (s : State),
    readOperand (.place (.register i)) s = s.reg i ∧
    readOperand (.place (.memory b d)) s = s.memRead (effectiveAddress b d s) ∧
    readOperand (.immediate v) s = v) ∧
  (∀ (i : RegIndex) (a v : Word) (s : State),
    readLoc (.reg i) s = s.reg i ∧ readLoc (.cell a) s = s.memRead a ∧
    writeLoc (.reg i) v s = s.setReg i v ∧ writeLoc (.cell a) v s = s.memWrite a v)

/-- 20_memory.md R54: a write replaces one cell and changes no other, for every address; nothing but DM changes. -/
def Obligations.MemWriteThenRead : Prop :=
  ∀ (a b v : Word) (s : State),
    (s.memWrite a v).memRead a = v ∧
    (b ≠ a → (s.memWrite a v).memRead b = s.memRead b) ∧
    (s.memWrite a v).rf = s.rf ∧ (s.memWrite a v).flags = s.flags ∧ (s.memWrite a v).pc = s.pc ∧
    (s.memWrite a v).run = s.run ∧ (s.memWrite a v).code = s.code

/-- The model's own form of DM (log 3): memories in canonical form that read the same are the same data. -/
def Obligations.CanonicalMemoryIsUnique : Prop :=
  ∀ m n : Memory, m.wf → n.wf → (∀ a : Word, m.read a.toNat = n.read a.toNat) → m = n

/-- 20_memory.md section 1 (the spec's decision D17): a store is seen by a load of the same address and by no other, the
neighbouring address included. `mov [a], cx` then `mov dx, [b]`. -/
def Obligations.StoreThenLoadSeesOnlyThatCell : Prop :=
  ∀ (a b : Word) (s : State), ∃ t u : State,
    exec (.movRmReg .word 1 (.direct a)) s = .next t ∧ exec (.movRegRm .word 2 (.direct b)) t = .next u ∧
    u.reg DX = (if a = b then s.reg CX else s.memRead b)

/-! ## What each instruction does: it completes, with this result and this frame -/

/-- 41_mov.md R163, all three forms: destination := source, FLAGS as before, pc past the instruction, nothing else. -/
def Obligations.MovFormsComplete : Prop :=
  (∀ (w : Width) (reg : RegNum) (rm : RM) (s : State), ∃ t, exec (.movRmReg w reg rm) s = .next t ∧
    MovEffect (locOf (rmPlace w rm) s) (s.reg (regIndex w reg)) (2 + rm.dispBytes) s t) ∧
  (∀ (w : Width) (reg : RegNum) (rm : RM) (s : State), ∃ t, exec (.movRegRm w reg rm) s = .next t ∧
    MovEffect (.reg (regIndex w reg)) (readLoc (locOf (rmPlace w rm) s) s) (2 + rm.dispBytes) s t) ∧
  (∀ (w : Width) (reg : RegNum) (imm : Word) (s : State), ∃ t, exec (.movRegImm w reg imm) s = .next t ∧
    MovEffect (.reg (regIndex w reg)) imm (1 + immBytesRI w) s t)

/-- 42_alu.md sections 2, 3 and 4, the three ADD forms (16 bits whatever w is: the spec's decision D18): the sum modulo 65536, FLAGS of the sum, nothing else. -/
def Obligations.AddFormsComplete : Prop :=
  (∀ (w : Width) (reg : RegNum) (rm : RM) (s : State), ∃ t, exec (.addRmReg w reg rm) s = .next t ∧
    AddEffect (locOf (rmPlace w rm) s) (s.reg (regIndex w reg)) (2 + rm.dispBytes) s t) ∧
  (∀ (w : Width) (reg : RegNum) (rm : RM) (s : State), ∃ t, exec (.addRegRm w reg rm) s = .next t ∧
    AddEffect (.reg (regIndex w reg)) (readLoc (locOf (rmPlace w rm) s) s) (2 + rm.dispBytes) s t) ∧
  (∀ (sx : Bool) (w : Width) (rm : RM) (imm : Word) (s : State), ∃ t, exec (.addRmImm sx w rm imm) s = .next t ∧
    AddEffect (locOf (rmPlace w rm) s) imm (2 + rm.dispBytes + immBytesMI sx w) s t)

/-- 42_alu.md sections 2, 3 and 5, the three SUB forms (decision D18): the difference modulo 65536, FLAGS of it, nothing else. -/
def Obligations.SubFormsComplete : Prop :=
  (∀ (w : Width) (reg : RegNum) (rm : RM) (s : State), ∃ t, exec (.subRmReg w reg rm) s = .next t ∧
    SubEffect (locOf (rmPlace w rm) s) (s.reg (regIndex w reg)) (2 + rm.dispBytes) s t) ∧
  (∀ (w : Width) (reg : RegNum) (rm : RM) (s : State), ∃ t, exec (.subRegRm w reg rm) s = .next t ∧
    SubEffect (.reg (regIndex w reg)) (readLoc (locOf (rmPlace w rm) s) s) (2 + rm.dispBytes) s t) ∧
  (∀ (sx : Bool) (w : Width) (rm : RM) (imm : Word) (s : State), ∃ t, exec (.subRmImm sx w rm imm) s = .next t ∧
    SubEffect (locOf (rmPlace w rm) s) imm (2 + rm.dispBytes + immBytesMI sx w) s t)

/-- 42_alu.md sections 2, 3 and 6, the three CMP forms (decision D18): FLAGS of the difference, no cell written. -/
def Obligations.CmpFormsComplete : Prop :=
  (∀ (w : Width) (reg : RegNum) (rm : RM) (s : State), ∃ t, exec (.cmpRmReg w reg rm) s = .next t ∧
    CmpEffect (readLoc (locOf (rmPlace w rm) s) s) (s.reg (regIndex w reg)) (2 + rm.dispBytes) s t) ∧
  (∀ (w : Width) (reg : RegNum) (rm : RM) (s : State), ∃ t, exec (.cmpRegRm w reg rm) s = .next t ∧
    CmpEffect (s.reg (regIndex w reg)) (readLoc (locOf (rmPlace w rm) s) s) (2 + rm.dispBytes) s t) ∧
  (∀ (sx : Bool) (w : Width) (rm : RM) (imm : Word) (s : State), ∃ t, exec (.cmpRmImm sx w rm imm) s = .next t ∧
    CmpEffect (readLoc (locOf (rmPlace w rm) s) s) imm (2 + rm.dispBytes + immBytesMI sx w) s t)

/-- 43_branch.md R191: the branch resolver, and JNE through it: with FLAGS = Zero the pc moves by the size alone, else the
signed displacement is added to the pointer already advanced past the JNE. Nothing but pc changes. -/
def Obligations.JneResolvesBranch : Prop :=
  (∀ (f : Flag) (pcadv d : Word),
    (branchTaken f = true ↔ f ≠ .zero) ∧
    (f ≠ .zero → ((nextPc f pcadv d).toNat : Int) = (pcadv.toNat + d.toInt) % 65536) ∧
    (f = .zero → nextPc f pcadv d = pcadv)) ∧
  (∀ (disp : Byte) (s : State), ∃ t, exec (.jne disp) s = .next t ∧
    (s.flags = .zero → t.pc.toNat = (s.pc.toNat + 2) % 65536) ∧
    (s.flags ≠ .zero → (t.pc.toNat : Int) = (s.pc.toNat + 2 + disp.toInt) % 65536) ∧
    t.flags = s.flags ∧ FrameExcept none s t)

/-- 42_alu.md R182: from the same state, SUB and CMP leave the same FLAGS, and the states differ only in the destination that
SUB writes; the literal sentence about the two in sequence is false. -/
def Obligations.SubAndCmpAgreeOnFlags : Prop :=
  (∀ (w : Width) (reg : RegNum) (rm : RM) (s : State), ∃ t u,
    exec (.subRmReg w reg rm) s = .next t ∧ exec (.cmpRmReg w reg rm) s = .next u ∧
    t.flags = u.flags ∧ t = writeLoc (locOf (rmPlace w rm) s) (readLoc (locOf (rmPlace w rm) s) t) u) ∧
  (∀ (w : Width) (reg : RegNum) (rm : RM) (s : State), ∃ t u,
    exec (.subRegRm w reg rm) s = .next t ∧ exec (.cmpRegRm w reg rm) s = .next u ∧
    t.flags = u.flags ∧ t = u.setReg (regIndex w reg) (t.reg (regIndex w reg))) ∧
  (∀ (sx : Bool) (w : Width) (rm : RM) (imm : Word) (s : State), ∃ t u,
    exec (.subRmImm sx w rm imm) s = .next t ∧ exec (.cmpRmImm sx w rm imm) s = .next u ∧
    t.flags = u.flags ∧ t = writeLoc (locOf (rmPlace w rm) s) (readLoc (locOf (rmPlace w rm) s) t) u) ∧
  (∃ s t u : State, exec (.subRmReg .word 3 (.register 0)) s = .next t ∧
    exec (.cmpRmReg .word 3 (.register 0)) t = .next u ∧ t.flags ≠ u.flags)

/-- 44_sequencer.md section 2 (decision D27): for every instruction, what it leaves unchanged: every cell but the one
`writtenLoc` computes on the state before it, RUN and CODE. -/
def Obligations.InstructionFrame : Prop :=
  ∀ (i : Instr) (s t : State), exec i s = .next t → FrameExcept (writtenLoc i s) s t

/-- 10_state.md R29: ADD, SUB and CMP replace FLAGS by the flag of their result, MOV and JNE do not write it; JNE alone reads
it: for every other instruction the old FLAGS changes nothing else in the next state. -/
def Obligations.FlagsWritersAndReaders : Prop :=
  (∀ (i : Instr) (s t : State) (dst : Place) (src : Operand), exec i s = .next t →
    (recordOf i).operand0 = .place dst → (recordOf i).operand1 = some src →
    ((recordOf i).op = .alu .mov → t.flags = s.flags) ∧
    ((recordOf i).op = .alu .add →
      t.flags = setFlagBasedOnValue (readLoc (locOf dst s) s + readOperand src s)) ∧
    ((recordOf i).op = .alu .sub ∨ (recordOf i).op = .alu .cmp →
      t.flags = setFlagBasedOnValue (readLoc (locOf dst s) s - readOperand src s))) ∧
  (∀ (d : Byte) (s t : State), exec (.jne d) s = .next t → t.flags = s.flags) ∧
  (∀ (i : Instr) (f : Flag) (s t : State), (∀ d, i ≠ .jne d) → exec i s = .next t →
    ∃ u, exec i (s.setFlags f) = .next u ∧ u.setFlags t.flags = t ∧ (u.flags = t.flags ∨ u.flags = f)) ∧
  (∀ (d : Byte) (f g : Flag) (s t : State), f ≠ .zero → g ≠ .zero → exec (.jne d) (s.setFlags f) = .next t →
    exec (.jne d) (s.setFlags g) = .next (t.setFlags g))

/-- 10_state.md section 2 (the spec's decision D3): byte and word registers are separate: an instruction with w = 0 changes
none of the cells 0 to 7, one with w = 1 none of the cells 8 to 15, and JNE none at all. -/
def Obligations.WidthSeparatesRegisterCells : Prop :=
  ∀ (i : Instr) (s t : State), exec i s = .next t →
    (widthOf i ≠ some .word → ∀ n : RegNum, t.reg (regIndex .word n) = s.reg (regIndex .word n)) ∧
    (widthOf i ≠ some .byte → ∀ n : RegNum, t.reg (regIndex .byte n) = s.reg (regIndex .byte n))

/-! ## Encoding and decoding -/

/-- 30_encoding.md sections 1 to 4: decoding the bytes of a well-formed instruction gives it back, whatever follows. -/
def Obligations.DecodeOfEncode : Prop :=
  ∀ (i : Instr) (rest : List Byte), i.wf = true → decode (encode i ++ rest) = .ok (i, rest)

/-- 30_encoding.md section 5: whatever decodes is well formed and its bytes are its encoding: each byte sequence has one
meaning, and no bit of it is dropped. -/
def Obligations.EncodeOfDecode : Prop :=
  ∀ (bs rest : List Byte) (i : Instr), decode bs = .ok (i, rest) → i.wf = true ∧ bs = encode i ++ rest

/-- 40_decoder.md section 6, 30_encoding.md sections 4 and 5 (patterns and sub-opcodes: the spec's decisions D9, D15, D16; log
13): UnrecognizedOpcode comes in two places only: a first byte in none of the seven patterns, and a
sub-opcode of format MI other than 000, 101 and 111. -/
def Obligations.UnrecognizedOpcodeExactly : Prop :=
  ∀ bs : List Byte, decode bs = .error .unrecognizedOpcode ↔
    ∃ (b0 : Byte) (bs' : List Byte), bs = b0 :: bs' ∧
      ((¬ (b0.toNat ≤ 0x03 ∨ (0x28 ≤ b0.toNat ∧ b0.toNat ≤ 0x2B) ∨ (0x38 ≤ b0.toNat ∧ b0.toNat ≤ 0x3B) ∨
          b0.toNat = 0x75 ∨ (0x80 ≤ b0.toNat ∧ b0.toNat ≤ 0x83) ∨ (0x88 ≤ b0.toNat ∧ b0.toNat ≤ 0x8B) ∨
          (0xB0 ≤ b0.toNat ∧ b0.toNat ≤ 0xBF))) ∨
       ((0x80 ≤ b0.toNat ∧ b0.toNat ≤ 0x83) ∧ ∃ (b1 : Byte) (bs'' : List Byte), bs' = b1 :: bs'' ∧
          b1.toNat / 8 % 8 ≠ 0 ∧ b1.toNat / 8 % 8 ≠ 5 ∧ b1.toNat / 8 % 8 ≠ 7))

/-- 40_decoder.md section 6: TruncatedInput is answered exactly for the proper prefixes of encoded instructions. -/
def Obligations.TruncatedInputExactly : Prop :=
  ∀ bs : List Byte, decode bs = .error .truncatedInput ↔
    ∃ (i : Instr) (k : Nat), i.wf = true ∧ k < i.size ∧ bs = (encode i).take k

/-- 40_decoder.md R133: the size is the number of bytes the cursor advanced, 2 to 6, and it is the size in the record; the
bytes lie inside CODE. -/
def Obligations.SizeIsConsumedBytes : Prop :=
  ∀ (code : List Byte) (pos n : Nat) (i : Instr), decodeAt code pos = .ok (i, n) →
    n = (recordOf i).size ∧ 2 ≤ n ∧ n ≤ 6 ∧ pos + n ≤ code.length ∧ (code.drop pos).take n = encode i

/-- 40_decoder.md section 7 (the opcodes and the direction bit: the spec's decisions D9 to D11; log 13): with mod = 11 the two directions of MOV, ADD, SUB and CMP decode to the same record. -/
def Obligations.DirectionSymmetry : Prop :=
  ∀ (op : AluOp) (opcode : BitVec 6) (w : Width) (a b : RegNum) (rest : List Byte),
    (op, opcode) ∈ [(AluOp.mov, 0b100010#6), (.add, 0b000000#6), (.sub, 0b001010#6), (.cmp, 0b001110#6)] →
    ∃ i j : Instr,
      decode ((opcode ++ 0#1 ++ w.bit : Byte) :: (0b11#2 ++ a ++ b : Byte) :: rest) = .ok (i, rest) ∧
      decode ((opcode ++ 1#1 ++ w.bit : Byte) :: (0b11#2 ++ b ++ a : Byte) :: rest) = .ok (j, rest) ∧
      recordOf i = recordOf j ∧
      recordOf i = ⟨.alu op, .place (.register (regIndex w b)), some (.place (.register (regIndex w a))), 2⟩

/-- 30_encoding.md sections 1, 2 and 4, 40_decoder.md sections 3 and 4 (decisions D9 to D12; log 13): format RM decodes, for
every operation, direction, width, reg field and r/m operand, to the record with that operand: the base by r/m number, the
displacement by mod. -/
def Obligations.FormatRmRecords : Prop :=
  ∀ (op : AluOp) (opcode : BitVec 6) (w : Width) (reg : RegNum) (bs rest : List Byte) (p : Place),
    (op, opcode) ∈ [(AluOp.mov, 0b100010#6), (.add, 0b000000#6), (.sub, 0b001010#6), (.cmp, 0b001110#6)] →
    RmBytes w reg bs p →
    (∃ i : Instr, decode ((opcode ++ 0#1 ++ w.bit : Byte) :: bs ++ rest) = .ok (i, rest) ∧
      recordOf i = ⟨.alu op, .place p, some (.place (.register (regIndex w reg))), 1 + bs.length⟩) ∧
    (∃ i : Instr, decode ((opcode ++ 1#1 ++ w.bit : Byte) :: bs ++ rest) = .ok (i, rest) ∧
      recordOf i = ⟨.alu op, .place (.register (regIndex w reg)), some (.place p), 1 + bs.length⟩)

/-- 30_encoding.md sections 1 to 4, 40_decoder.md sections 3 and 4 (decisions D9, D10, D12, D14, D15; log 13): format MI
decodes, for every sub-opcode, s, w, r/m operand and immediate, to the record with them, displacement before immediate. -/
def Obligations.FormatMiRecords : Prop :=
  ∀ (op : AluOp) (sub : BitVec 3) (sx : Bool) (w : Width) (bs imm rest : List Byte) (p : Place) (v : Word),
    (op, sub) ∈ [(AluOp.add, 0b000#3), (.sub, 0b101#3), (.cmp, 0b111#3)] →
    RmBytes w sub bs p → ImmBytesMI sx w imm v →
    ∃ i : Instr, decode ((0b100000#6 ++ BitVec.ofBool sx ++ w.bit : Byte) :: bs ++ imm ++ rest) = .ok (i, rest) ∧
      recordOf i = ⟨.alu op, .place p, some (.immediate v), 1 + bs.length + imm.length⟩

/-- 30_encoding.md sections 1 to 4, 40_decoder.md section 3 (decisions D10, D14, D16; log 13): formats RI and J decode to
their records. -/
def Obligations.FormatRiAndJRecords : Prop :=
  (∀ (w : Width) (reg : RegNum) (imm rest : List Byte) (v : Word), ImmBytesRI w imm v →
    ∃ i : Instr, decode ((0b1011#4 ++ w.bit ++ reg : Byte) :: imm ++ rest) = .ok (i, rest) ∧
      recordOf i = ⟨.alu .mov, .place (.register (regIndex w reg)), some (.immediate v), 1 + imm.length⟩) ∧
  (∀ (d : Byte) (rest : List Byte), ∃ (i : Instr) (v : Word), v.toInt = d.toInt ∧
    decode (0x75 :: d :: rest) = .ok (i, rest) ∧ recordOf i = ⟨.jne, .immediate v, none, 2⟩)

/-- 30_encoding.md section 8: the decoder follows the opcode table: a decoded instruction's row is the one row of the table
that its first two bytes select, and where no row selects them the decoder answers UnrecognizedOpcode. -/
def Obligations.OpcodeTableSelectsTheRow : Prop :=
  ∀ (b0 b1 : Byte) (bs : List Byte),
    (∀ (i : Instr) (rest : List Byte), decode (b0 :: b1 :: bs) = .ok (i, rest) →
      ∀ r ∈ opcodeTable, r.selects b0 b1 = true ↔ r = i.row) ∧
    (decode (b0 :: b1 :: bs) = .error .unrecognizedOpcode ↔ ∀ r ∈ opcodeTable, r.selects b0 b1 = false)

/-- 30_encoding.md section 3 (the spec's decision D14): the immediate of format MI by s and w, on a register r/m operand of
ADD, and the immediate of format RI. -/
def Obligations.ImmediateWidening : Prop :=
  ∀ (n : RegNum) (b lo hi : Byte) (rest : List Byte),
    (∃ v : Word, v.toNat = b.toNat ∧
      decode (0x80 :: (0b11000#5 ++ n : Byte) :: b :: rest) = .ok (.addRmImm false .byte (.register n) v, rest) ∧
      decode ((0b10110#5 ++ n : Byte) :: b :: rest) = .ok (.movRegImm .byte n v, rest)) ∧
    (∃ v : Word, v.toNat = hi.toNat * 256 + lo.toNat ∧
      decode (0x81 :: (0b11000#5 ++ n : Byte) :: lo :: hi :: rest)
        = .ok (.addRmImm false .word (.register n) v, rest) ∧
      decode ((0b10111#5 ++ n : Byte) :: lo :: hi :: rest) = .ok (.movRegImm .word n v, rest)) ∧
    (∃ v : Word, v.toInt = b.toInt ∧
      decode (0x82 :: (0b11000#5 ++ n : Byte) :: b :: rest) = .ok (.addRmImm true .byte (.register n) v, rest) ∧
      decode (0x83 :: (0b11000#5 ++ n : Byte) :: b :: rest) = .ok (.addRmImm true .word (.register n) v, rest))

/-- 30_encoding.md section 2 and 95_test_vectors.md section 2.1: words written out from the encodings, one of each format and
mod value. -/
def Obligations.SpecWordsDecode : Prop :=
  decode [0x89, 0xD9] = .ok (.movRmReg .word 3 (.register 1), []) ∧
  decode [0x8B, 0x41, 0xFF] = .ok (.movRegRm .word 0 (.disp8 .bxDi 0xFF), []) ∧
  decode [0x8B, 0x86, 0x34, 0x12] = .ok (.movRegRm .word 0 (.disp16 .bp 0x1234), []) ∧
  decode [0xB5, 0xF4] = .ok (.movRegImm .byte 5 0x00F4, []) ∧
  decode [0x03, 0x18] = .ok (.addRegRm .word 3 (.noDisp .bxSi), []) ∧
  decode [0x29, 0xCB] = .ok (.subRmReg .word 1 (.register 3), []) ∧
  decode [0x81, 0x3E, 0xE8, 0x03, 0x34, 0x12] = .ok (.cmpRmImm false .word (.direct 0x03E8) 0x1234, []) ∧
  decode [0x75, 0xFB] = .ok (.jne 0xFB, []) ∧
  decode [0xFF] = .error .unrecognizedOpcode ∧
  decode [0xB8, 0x05] = .error .truncatedInput

/-- 40_decoder.md R121, R122 and R123: the cursor. Below LEN, `peek` gives the byte and `next` gives it and moves by one; at
LEN both answer EndOfInput and the position stays; `remaining` is LEN - position; the cursor stays within the buffer. -/
def Obligations.CursorOperations : Prop :=
  ∀ c : Cursor, c.wf →
    (∀ h : c.position < c.code.length,
      c.peek = some c.code[c.position] ∧
      c.next = (some c.code[c.position], ⟨c.code, c.position + 1⟩)) ∧
    (c.position = c.code.length → c.peek = none ∧ c.next = (none, c)) ∧
    c.remaining + c.position = c.code.length ∧ c.next.2.wf

/-! ## The sequencer -/

/-- 44_sequencer.md section 1: a step runs the decoded instruction: where the bytes at the pc are the encoding of a well-formed
instruction, the step is that instruction's meaning on the same state, and nothing is added around it. -/
def Obligations.StepRunsDecodedInstruction : Prop :=
  ∀ (i : Instr) (rest : List Byte) (s : State), s.ready → i.wf = true →
    s.code.drop s.pc.toNat = encode i ++ rest → step s = exec i s

/-- 44_sequencer.md R201: pc ≥ LEN ends the run: RUN becomes Halted and no other state changes; with LEN = 0 at once. -/
def Obligations.LoopTestHalts : Prop :=
  (∀ s : State, s.ready → s.len ≤ s.pc.toNat → step s = .next { s with run := .halted }) ∧
  step (startOf []) = .next { startOf [] with run := .halted }

/-- 60_exceptions.md section 3 (the spec's decision D19): a decode fault sets RUN and keeps everything else as it was before
the step, pc included. -/
def Obligations.DecodeFaultIsPrecise : Prop :=
  ∀ (e : DecodeError) (s : State), s.ready → s.pc.toNat < s.len → decode (s.code.drop s.pc.toNat) = .error e →
    ∃ t, step s = .next t ∧
      t.run = .faulted (match e with
        | .unrecognizedOpcode => .unrecognizedOpcode
        | .truncatedInput => .truncatedInput) ∧
      t.rf = s.rf ∧ t.dm = s.dm ∧ t.flags = s.flags ∧ t.pc = s.pc ∧ t.code = s.code

/-- 10_state.md section 5 and 44_sequencer.md section 4 (decision D21; log 6): a state whose run has ended has no next step:
the interface's step answers the fault that says how it ended. -/
def Obligations.EndedRunHasNoNextStep : Prop :=
  ∀ s : State, (s.run = .halted → step s = .fault .runHalted) ∧
    (∀ c, s.run = .faulted c → step s = .fault (.runFaulted c))

/-- The model's own refusal (log 2), for 93_implementation_defined.md U8: with LEN > 65535 the step is refused by name. -/
def Obligations.LongCodeIsRefused : Prop :=
  ∀ s : State, s.run = .running → 65535 < s.len → step s = .refused .codeTooLong

/-- 44_sequencer.md section 4: every step of a running machine answers a next state, and RUN says which of the three ways the
step went: the loop test ended the run, the decoder failed, or an instruction was executed. -/
def Obligations.RunningStepOutcome : Prop :=
  ∀ s : State, s.ready → ∃ t, step s = .next t ∧
    (t.run = .halted ↔ s.len ≤ s.pc.toNat) ∧
    (t.run = .faulted .unrecognizedOpcode ↔
      s.pc.toNat < s.len ∧ decode (s.code.drop s.pc.toNat) = .error .unrecognizedOpcode) ∧
    (t.run = .faulted .truncatedInput ↔
      s.pc.toNat < s.len ∧ decode (s.code.drop s.pc.toNat) = .error .truncatedInput) ∧
    t.run ≠ .faulted .unsupportedOperation ∧
    (t.run = .running ↔
      s.pc.toNat < s.len ∧ ∃ i rest, decode (s.code.drop s.pc.toNat) = .ok (i, rest) ∧ exec i s = .next t)

/-- 60_exceptions.md R222: a step raises TruncatedInput exactly where the bytes from pc to the end of the buffer stop inside an
encoded instruction; that is only for an instruction that starts in the last five bytes, and depends on CODE and pc alone. -/
def Obligations.TruncatedInputOnlyNearTheEnd : Prop :=
  (∀ s : State, s.ready → s.pc.toNat < s.len →
    ((∃ t, step s = .next t ∧ t.run = .faulted .truncatedInput) ↔
      ∃ (i : Instr) (k : Nat), i.wf = true ∧ k < i.size ∧ s.code.drop s.pc.toNat = (encode i).take k)) ∧
  (∀ s t : State, s.run = .running → step s = .next t → t.run = .faulted .truncatedInput →
    s.pc.toNat < s.len ∧ s.len ≤ s.pc.toNat + 5) ∧
  (∀ s t s' t' : State, s.run = .running → s'.run = .running → s'.code = s.code → s'.pc = s.pc →
    step s = .next t → step s' = .next t' →
    (t.run = .faulted .truncatedInput ↔ t'.run = .faulted .truncatedInput))

/-- 10_state.md section 3 (decision D7): a sequential advance never wraps: every instruction but JNE moves pc forward by its
size, to at most LEN. -/
def Obligations.SequentialAdvanceNeverWraps : Prop :=
  ∀ (s t : State) (i : Instr) (rest : List Byte), s.ready → (∀ d, i ≠ .jne d) →
    decode (s.code.drop s.pc.toNat) = .ok (i, rest) → step s = .next t →
    t.pc.toNat = s.pc.toNat + i.size ∧ t.pc.toNat ≤ s.len

/-- 43_branch.md, the corner cases of JNE: a taken `75 FE` jumps to itself, so the run never ends. -/
def Obligations.SelfBranchRunsForever : Prop :=
  ∀ (s : State) (rest : List Byte) (n : Nat), s.ready → s.flags ≠ .zero →
    s.code.drop s.pc.toNat = 0x75 :: 0xFE :: rest → step s = .next s ∧ runFuel n s = s

/-- 20_memory.md section 6: CODE never changes: no step writes it, so stores are never seen by instruction fetch. -/
def Obligations.StepNeverWritesCode : Prop :=
  ∀ s t : State, step s = .next t → t.code = s.code

/-- Every step keeps the invariant: DM in canonical form (log 3), LEN within the premise, and RUN never
Faulted(UnsupportedOperation) (60_exceptions.md section 1, decision D22). -/
def Obligations.StepKeepsTheInvariant : Prop :=
  ∀ s t : State, s.Inv → step s = .next t → t.Inv

/-- The reset state meets the invariant, and so does every start of a program whose LEN is within the premise. -/
def Obligations.StartMeetsTheInvariant : Prop :=
  State.reset.Inv ∧ ∀ code : List Byte, code.length ≤ 65535 → (startOf code).Inv

/-- 44_sequencer.md section 4: a run that has ended is never resumed: more fuel changes nothing, and no more records come. -/
def Obligations.EndedRunIsNeverResumed : Prop :=
  ∀ (s : State) (n m : Nat), (runFuel n s).ended →
    runFuel (n + m) s = runFuel n s ∧ runRecords (n + m) s = runRecords n s

/-! ## Reset and the host interface -/

/-- 10_state.md section 8 and 70_reset_and_hazards.md section 1: what reset leaves. The zeros of registers and memory are the
source's; pc = 0 and FLAGS = None are the spec's decisions D5 and D6 (log 4). Reset may be applied in any state and keeps
CODE. -/
def Obligations.ResetLeaves : Prop :=
  (∀ s : State, (∀ i, s.resetAction.reg i = 0) ∧ (∀ a, s.resetAction.memRead a = 0) ∧
    s.resetAction.flags = .none ∧ s.resetAction.pc = 0 ∧ s.resetAction.run = .running ∧
    s.resetAction.code = s.code) ∧
  (∀ i, State.reset.reg i = 0) ∧ (∀ a, State.reset.memRead a = 0) ∧ State.reset.flags = .none ∧
  State.reset.pc = 0 ∧ State.reset.run = .running ∧ State.reset.code = []

/-- 44_sequencer.md section 3 (decision D24): an executed instruction emits one step record, with the values of the two
states; the destination's old and new value are present for MOV, ADD, SUB and CMP, equal for CMP, absent for JNE.
No instruction moves its own destination: its address is the same in both states. -/
def Obligations.StepRecordOfExecutedInstruction : Prop :=
  ∀ (s t : State) (i : Instr) (rest : List Byte), s.ready →
    decode (s.code.drop s.pc.toNat) = .ok (i, rest) → step s = .next t →
    ∃ r, s.stepRecord = some r ∧ r.instr = recordOf i ∧
      r.flagsBefore = s.flags ∧ r.flagsAfter = t.flags ∧ r.pcBefore = s.pc ∧ r.pcAfter = t.pc ∧
      (∀ p, (recordOf i).operand0 = .place p →
        r.destBefore = some (readOperand (.place p) s) ∧ r.destAfter = some (readLoc (locOf p s) t) ∧
        readOperand (.place p) t = readLoc (locOf p s) t) ∧
      ((recordOf i).op = .alu .cmp → r.destAfter = r.destBefore) ∧
      ((recordOf i).op = .jne → r.destBefore = none ∧ r.destAfter = none)

/-- 44_sequencer.md section 3: no step record for a step that only halts, for one that faults, or for none at all. -/
def Obligations.NoRecordWithoutAnInstruction : Prop :=
  ∀ s : State, (∀ t, step s = .next t → t.run ≠ .running) → s.stepRecord = none

/-- 44_sequencer.md R214: the snapshot: exactly the non-zero registers, with pc and FLAGS. -/
def Obligations.SnapshotListsNonZeroRegisters : Prop :=
  ∀ s : State, (∀ (i : RegIndex) (v : Word), (i, v) ∈ s.snapshot.nonZeroRegs ↔ s.reg i = v ∧ v ≠ 0) ∧
    s.snapshot.pc = s.pc ∧ s.snapshot.flags = s.flags

/-- The model's own interface (log 8, 9): from every state, the step after `withFetchWord` runs the instruction that the
decoder reads from the table word, and the placed state keeps the registers, DM and FLAGS. -/
def Obligations.PlacedTableWordRuns : Prop :=
  ∀ (s : State) (nbits w : Nat) (i : Instr), decodeTableWord nbits w = some i →
    step (s.withFetchWord nbits w) = exec i (s.withFetchWord nbits w) ∧
    (s.withFetchWord nbits w).rf = s.rf ∧ (s.withFetchWord nbits w).dm = s.dm ∧
    (s.withFetchWord nbits w).flags = s.flags

end
end

