-- ==== Sys2Proof/Laws/State.lean ====
section
/-! SUPPORT. The small lemmas of the state's updates: one for each field and update, and the register and memory reads after
each update. -/

namespace Sys2Proof.Machine

@[simp] theorem State.setReg_dm (i : RegIndex) (v : Word) (s : State) : (s.setReg i v).dm = s.dm := rfl
@[simp] theorem State.setReg_flags (i : RegIndex) (v : Word) (s : State) : (s.setReg i v).flags = s.flags := rfl
@[simp] theorem State.setReg_pc (i : RegIndex) (v : Word) (s : State) : (s.setReg i v).pc = s.pc := rfl
@[simp] theorem State.setReg_run (i : RegIndex) (v : Word) (s : State) : (s.setReg i v).run = s.run := rfl
@[simp] theorem State.setReg_code (i : RegIndex) (v : Word) (s : State) : (s.setReg i v).code = s.code := rfl

@[simp] theorem State.memWrite_rf (a v : Word) (s : State) : (s.memWrite a v).rf = s.rf := rfl
@[simp] theorem State.memWrite_flags (a v : Word) (s : State) : (s.memWrite a v).flags = s.flags := rfl
@[simp] theorem State.memWrite_pc (a v : Word) (s : State) : (s.memWrite a v).pc = s.pc := rfl
@[simp] theorem State.memWrite_run (a v : Word) (s : State) : (s.memWrite a v).run = s.run := rfl
@[simp] theorem State.memWrite_code (a v : Word) (s : State) : (s.memWrite a v).code = s.code := rfl

@[simp] theorem State.setFlags_rf (f : Flag) (s : State) : (s.setFlags f).rf = s.rf := rfl
@[simp] theorem State.setFlags_dm (f : Flag) (s : State) : (s.setFlags f).dm = s.dm := rfl
@[simp] theorem State.setFlags_flags (f : Flag) (s : State) : (s.setFlags f).flags = f := rfl
@[simp] theorem State.setFlags_pc (f : Flag) (s : State) : (s.setFlags f).pc = s.pc := rfl
@[simp] theorem State.setFlags_run (f : Flag) (s : State) : (s.setFlags f).run = s.run := rfl
@[simp] theorem State.setFlags_code (f : Flag) (s : State) : (s.setFlags f).code = s.code := rfl

@[simp] theorem State.setPc_rf (t : Word) (s : State) : (s.setPc t).rf = s.rf := rfl
@[simp] theorem State.setPc_dm (t : Word) (s : State) : (s.setPc t).dm = s.dm := rfl
@[simp] theorem State.setPc_flags (t : Word) (s : State) : (s.setPc t).flags = s.flags := rfl
@[simp] theorem State.setPc_pc (t : Word) (s : State) : (s.setPc t).pc = t := rfl
@[simp] theorem State.setPc_run (t : Word) (s : State) : (s.setPc t).run = s.run := rfl
@[simp] theorem State.setPc_code (t : Word) (s : State) : (s.setPc t).code = s.code := rfl

@[simp] theorem State.setRun_rf (r : RunStatus) (s : State) : (s.setRun r).rf = s.rf := rfl
@[simp] theorem State.setRun_dm (r : RunStatus) (s : State) : (s.setRun r).dm = s.dm := rfl
@[simp] theorem State.setRun_flags (r : RunStatus) (s : State) : (s.setRun r).flags = s.flags := rfl
@[simp] theorem State.setRun_pc (r : RunStatus) (s : State) : (s.setRun r).pc = s.pc := rfl
@[simp] theorem State.setRun_run (r : RunStatus) (s : State) : (s.setRun r).run = r := rfl
@[simp] theorem State.setRun_code (r : RunStatus) (s : State) : (s.setRun r).code = s.code := rfl

@[simp] theorem State.reg_memWrite (i : RegIndex) (a v : Word) (s : State) : (s.memWrite a v).reg i = s.reg i := rfl
@[simp] theorem State.reg_setFlags (i : RegIndex) (f : Flag) (s : State) : (s.setFlags f).reg i = s.reg i := rfl
@[simp] theorem State.reg_setPc (i : RegIndex) (t : Word) (s : State) : (s.setPc t).reg i = s.reg i := rfl
@[simp] theorem State.reg_setRun (i : RegIndex) (r : RunStatus) (s : State) : (s.setRun r).reg i = s.reg i := rfl

@[simp] theorem State.memRead_setReg (a : Word) (i : RegIndex) (v : Word) (s : State) :
    (s.setReg i v).memRead a = s.memRead a := rfl
@[simp] theorem State.memRead_setFlags (a : Word) (f : Flag) (s : State) : (s.setFlags f).memRead a = s.memRead a := rfl
@[simp] theorem State.memRead_setPc (a t : Word) (s : State) : (s.setPc t).memRead a = s.memRead a := rfl
@[simp] theorem State.memRead_setRun (a : Word) (r : RunStatus) (s : State) : (s.setRun r).memRead a = s.memRead a := rfl

@[simp] theorem State.setFlags_setFlags (f g : Flag) (s : State) : (s.setFlags f).setFlags g = s.setFlags g := rfl
@[simp] theorem State.setPc_setPc (t u : Word) (s : State) : (s.setPc t).setPc u = s.setPc u := rfl
@[simp] theorem State.setFlags_setPc (f : Flag) (t : Word) (s : State) :
    (s.setPc t).setFlags f = (s.setFlags f).setPc t := rfl
@[simp] theorem State.setFlags_self (s : State) : s.setFlags s.flags = s := rfl

/-- A register read after a register write: the cell written, and no other (10_state.md R22, R23). -/
theorem State.reg_setReg (i j : RegIndex) (v : Word) (s : State) :
    (s.setReg i v).reg j = if i = j then v else s.reg j := by
  simp only [State.reg, State.setReg, Fin.getElem_fin, Vector.getElem_set, Fin.ext_iff]

@[simp] theorem State.reg_setReg_same (i : RegIndex) (v : Word) (s : State) : (s.setReg i v).reg i = v := by
  simp [State.reg_setReg]

theorem State.reg_setReg_ne {i j : RegIndex} (v : Word) (s : State) (h : i ≠ j) : (s.setReg i v).reg j = s.reg j := by
  simp [State.reg_setReg, h]

end Sys2Proof.Machine
end

