-- ==== Sys2Proof/Laws/Datapath.lean ====
section
/-! SUPPORT. What the operand operations and the common semantics of MOV, ADD, SUB and CMP can do: one lemma for each effect. -/

namespace Sys2Proof.Machine

/-! ## Locations -/

@[simp] theorem writeLoc_flags (l : Loc) (v : Word) (s : State) : (writeLoc l v s).flags = s.flags := by cases l <;> rfl
@[simp] theorem writeLoc_pc (l : Loc) (v : Word) (s : State) : (writeLoc l v s).pc = s.pc := by cases l <;> rfl
@[simp] theorem writeLoc_run (l : Loc) (v : Word) (s : State) : (writeLoc l v s).run = s.run := by cases l <;> rfl
@[simp] theorem writeLoc_code (l : Loc) (v : Word) (s : State) : (writeLoc l v s).code = s.code := by cases l <;> rfl

@[simp] theorem readLoc_setPc (l : Loc) (t : Word) (s : State) : readLoc l (s.setPc t) = readLoc l s := by cases l <;> rfl
@[simp] theorem readLoc_setFlags (l : Loc) (f : Flag) (s : State) : readLoc l (s.setFlags f) = readLoc l s := by
  cases l <;> rfl

@[simp] theorem baseSum_setFlags (b : BaseRegs) (f : Flag) (s : State) : baseSum b (s.setFlags f) = baseSum b s := by
  cases b <;> rfl
@[simp] theorem locOf_setFlags (p : Place) (f : Flag) (s : State) : locOf p (s.setFlags f) = locOf p s := by
  rcases p with i | ⟨b | _, d⟩ <;> simp [locOf, effectiveAddress]
@[simp] theorem readOperand_setFlags (o : Operand) (f : Flag) (s : State) :
    readOperand o (s.setFlags f) = readOperand o s := by
  cases o <;> simp [readOperand]

/-- What was written is read back. -/
@[simp] theorem readLoc_writeLoc_same (l : Loc) (v : Word) (s : State) : readLoc l (writeLoc l v s) = v := by
  cases l <;> simp [readLoc, writeLoc]

theorem writeLoc_reg_of_ne {l : Loc} {i : RegIndex} (v : Word) (s : State) (h : l ≠ .reg i) :
    (writeLoc l v s).reg i = s.reg i := by
  cases l with
  | reg j => exact State.reg_setReg_ne v s fun e => h (e ▸ rfl)
  | cell a => rfl

theorem writeLoc_memRead_of_ne {l : Loc} {a : Word} (v : Word) (s : State) (h : l ≠ .cell a) :
    (writeLoc l v s).memRead a = s.memRead a := by
  cases l with
  | reg j => rfl
  | cell b =>
    have hb : b ≠ a := fun e => h (e ▸ rfl)
    simp [writeLoc, State.memRead_memWrite, hb]

theorem writeLoc_dm_wf {l : Loc} {v : Word} {s : State} (h : s.dm.wf) : (writeLoc l v s).dm.wf := by
  cases l with
  | reg j => exact h
  | cell a => exact State.memWrite_dm_wf a v h

/-- A write to a memory cell leaves every location's address as it was: no base register changes (44_sequencer.md R206). -/
theorem locOf_memWrite (p : Place) (a v : Word) (s : State) : locOf p (s.memWrite a v) = locOf p s := by
  rcases p with i | ⟨b | _, d⟩
  · rfl
  · cases b <;> rfl
  · rfl

/-! ## The common semantics -/

/-- The ALU's three outputs of each operation. -/
@[simp] theorem alu_mov (l r : Word) : alu .mov l r = ⟨r, true, none⟩ := rfl
@[simp] theorem alu_add (l r : Word) : alu .add l r = ⟨l + r, true, some (setFlagBasedOnValue (l + r))⟩ := rfl
@[simp] theorem alu_sub (l r : Word) : alu .sub l r = ⟨l - r, true, some (setFlagBasedOnValue (l - r))⟩ := rfl
@[simp] theorem alu_cmp (l r : Word) : alu .cmp l r = ⟨l - r, false, some (setFlagBasedOnValue (l - r))⟩ := rfl

/-- MOV, as updates of the state. -/
theorem aluStep_mov (dst : Place) (src : Operand) (n : Nat) (s : State) :
    aluStep .mov dst src n s = (writeLoc (locOf dst s) (readOperand src s) s).setPc (advancePc s.pc n) := rfl

/-- ADD, as updates of the state. -/
theorem aluStep_add (dst : Place) (src : Operand) (n : Nat) (s : State) :
    aluStep .add dst src n s =
      let v := readLoc (locOf dst s) s + readOperand src s
      ((writeLoc (locOf dst s) v s).setFlags (setFlagBasedOnValue v)).setPc (advancePc s.pc n) := rfl

/-- SUB, as updates of the state. -/
theorem aluStep_sub (dst : Place) (src : Operand) (n : Nat) (s : State) :
    aluStep .sub dst src n s =
      let v := readLoc (locOf dst s) s - readOperand src s
      ((writeLoc (locOf dst s) v s).setFlags (setFlagBasedOnValue v)).setPc (advancePc s.pc n) := rfl

/-- CMP, as updates of the state. -/
theorem aluStep_cmp (dst : Place) (src : Operand) (n : Nat) (s : State) :
    aluStep .cmp dst src n s =
      (s.setFlags (setFlagBasedOnValue (readLoc (locOf dst s) s - readOperand src s))).setPc (advancePc s.pc n) := rfl

@[simp] theorem aluStep_pc (op : AluOp) (dst : Place) (src : Operand) (n : Nat) (s : State) :
    (aluStep op dst src n s).pc = advancePc s.pc n := rfl

@[simp] theorem aluStep_run (op : AluOp) (dst : Place) (src : Operand) (n : Nat) (s : State) :
    (aluStep op dst src n s).run = s.run := by
  cases op <;> simp [aluStep_mov, aluStep_add, aluStep_sub, aluStep_cmp]

@[simp] theorem aluStep_code (op : AluOp) (dst : Place) (src : Operand) (n : Nat) (s : State) :
    (aluStep op dst src n s).code = s.code := by
  cases op <;> simp [aluStep_mov, aluStep_add, aluStep_sub, aluStep_cmp]

theorem aluStep_dm_wf {op : AluOp} {dst : Place} {src : Operand} {n : Nat} {s : State} (h : s.dm.wf) :
    (aluStep op dst src n s).dm.wf := by
  cases op
  · exact writeLoc_dm_wf h
  · exact writeLoc_dm_wf h
  · exact writeLoc_dm_wf h
  · exact h

/-- A frame around a location written. -/
theorem frameExcept_writeLoc (l : Loc) (v : Word) (s : State) : FrameExcept (some l) s (writeLoc l v s) :=
  ⟨fun _ h => writeLoc_reg_of_ne v s fun e => h (e ▸ rfl), fun _ h => writeLoc_memRead_of_ne v s fun e => h (e ▸ rfl),
    writeLoc_run l v s, writeLoc_code l v s⟩

/-- FLAGS and pc are outside every frame. -/
theorem frameExcept_setPc {l : Option Loc} {s t : State} (p : Word) (h : FrameExcept l s t) :
    FrameExcept l s (t.setPc p) := h

theorem frameExcept_setFlags {l : Option Loc} {s t : State} (f : Flag) (h : FrameExcept l s t) :
    FrameExcept l s (t.setFlags f) := h

theorem frameExcept_refl (l : Option Loc) (s : State) : FrameExcept l s s :=
  ⟨fun _ _ => rfl, fun _ _ => rfl, rfl, rfl⟩

/-- What MOV, ADD, SUB and CMP change: the location of the destination (not for CMP), FLAGS and pc. -/
theorem aluStep_frame (op : AluOp) (dst : Place) (src : Operand) (n : Nat) (s : State) :
    FrameExcept (if op = .cmp then none else some (locOf dst s)) s (aluStep op dst src n s) := by
  cases op
  · exact frameExcept_setPc _ (frameExcept_writeLoc _ _ s)
  · exact frameExcept_setPc _ (frameExcept_setFlags _ (frameExcept_writeLoc _ _ s))
  · exact frameExcept_setPc _ (frameExcept_setFlags _ (frameExcept_writeLoc _ _ s))
  · exact frameExcept_setPc _ (frameExcept_setFlags _ (frameExcept_refl _ s))

/-! ## pc arithmetic and flags -/

theorem toNat_advancePc (pc : Word) (n : Nat) : (advancePc pc n).toNat = (pc.toNat + n) % 65536 := by
  simp [advancePc, BitVec.toNat_add]

/-- Bit 15 is clear below 32768. -/
theorem and_signBit_eq_zero (v : Word) : v &&& 0x8000 = 0 ↔ v.toNat < 32768 := by
  have hv := v.isLt
  have h : (v &&& 0x8000).toNat = 2 ^ 15 * (v.toNat.testBit 15).toNat := by
    rw [BitVec.toNat_and, Nat.mul_comm]
    exact Nat.and_two_pow v.toNat 15
  rw [← BitVec.toNat_inj, h]
  have hb : v.toNat.testBit 15 = decide (32768 ≤ v.toNat) := by
    rw [Nat.testBit_eq_decide_div_mod_eq]
    congr 1
    simp only [eq_iff_iff]
    omega
  rw [hb]
  by_cases hc : 32768 ≤ v.toNat
  · simp [hc]
  · simp [hc]; omega

end Sys2Proof.Machine
end

