-- ==== Sys2Proof/Laws/Decode.lean ====
section
/-! SUPPORT. The decoder's and the encoder's building blocks: fields of a byte, words and bytes, one spec lemma for each of
`need`, `need16`, `rmOperand`, `immRI`, `immMI`, in both directions, and the cursor behind them. -/

namespace Sys2Proof

/-! ## Fields of the first byte -/

theorem opcodeField_firstByte : ∀ (o : BitVec 6) (d : Bool) (w : Width), (firstByte o d w).extractLsb' 2 6 = o := by
  intro o d w; cases d <;> cases w <;> revert o <;> decide

theorem bit1Field_firstByte : ∀ (o : BitVec 6) (d : Bool) (w : Width), bit1Field (firstByte o d w) = d := by
  intro o d w; cases d <;> cases w <;> revert o <;> decide

theorem wField_firstByte : ∀ (o : BitVec 6) (d : Bool) (w : Width), wField (firstByte o d w) = w := by
  intro o d w; cases d <;> cases w <;> revert o <;> decide

/-- A byte is its six opcode bits, its bit 1 and its w bit. -/
theorem firstByte_fields : ∀ b : Byte, firstByte (b.extractLsb' 2 6) (bit1Field b) (wField b) = b := by decide

theorem opcodeFieldRI_firstByteRI : ∀ (w : Width) (reg : RegNum), (firstByteRI w reg).extractLsb' 4 4 = 0b1011#4 := by
  intro w; cases w <;> decide

theorem wFieldRI_firstByteRI : ∀ (w : Width) (reg : RegNum), wFieldRI (firstByteRI w reg) = w := by
  intro w; cases w <;> decide

theorem regFieldRI_firstByteRI : ∀ (w : Width) (reg : RegNum), regFieldRI (firstByteRI w reg) = reg := by
  intro w; cases w <;> decide

/-- A byte of format RI is its w bit and its reg field. -/
theorem firstByteRI_fields : ∀ b : Byte, b.extractLsb' 4 4 = 0b1011#4 → firstByteRI (wFieldRI b) (regFieldRI b) = b := by
  decide

/-! ## Fields of the addressing-mode byte -/

theorem modField_modeByte : ∀ (m : BitVec 2) (r n : BitVec 3), modField (modeByte m r n) = m := by decide

theorem regField_modeByte : ∀ (m : BitVec 2) (r n : BitVec 3), regField (modeByte m r n) = r := by decide

theorem rmField_modeByte : ∀ (m : BitVec 2) (r n : BitVec 3), rmField (modeByte m r n) = n := by decide

/-- A byte is its mod, reg and r/m fields. -/
theorem modeByte_fields : ∀ b : Byte, modeByte (modField b) (regField b) (rmField b) = b := by decide

@[simp] theorem baseOfBits_bits (b : BaseRegs) : baseOfBits b.bits = b := by cases b <;> rfl

@[simp] theorem bits_baseOfBits : ∀ n : BitVec 3, (baseOfBits n).bits = n := by decide

/-- `[bp]` is the r/m field 110 (30_encoding.md R92). -/
theorem bits_eq_direct (b : BaseRegs) : b.bits = 0b110#3 ↔ b = .bp := by cases b <;> decide

theorem baseOfBits_eq_bp : ∀ n : BitVec 3, baseOfBits n = .bp ↔ n = 0b110#3 := by decide

/-! ## Words and bytes -/

theorem toNat_joinBytes (lo hi : Byte) : (joinBytes lo hi).toNat = hi.toNat * 256 + lo.toNat := by
  rw [joinBytes, BitVec.toNat_append, ← Nat.shiftLeft_add_eq_or_of_lt lo.isLt, Nat.shiftLeft_eq]

theorem toNat_lowByte (v : Word) : (lowByte v).toNat = v.toNat % 256 := by simp [lowByte]

theorem toNat_highByte (v : Word) : (highByte v).toNat = v.toNat / 256 := by
  have h := v.isLt
  simp [highByte, Nat.shiftRight_eq_div_pow]; omega

@[simp] theorem joinBytes_bytes (v : Word) : joinBytes (lowByte v) (highByte v) = v := by
  apply BitVec.eq_of_toNat_eq
  rw [toNat_joinBytes, toNat_lowByte, toNat_highByte]; omega

@[simp] theorem lowByte_joinBytes (lo hi : Byte) : lowByte (joinBytes lo hi) = lo := by
  apply BitVec.eq_of_toNat_eq
  have h := lo.isLt
  rw [toNat_lowByte, toNat_joinBytes]; omega

@[simp] theorem highByte_joinBytes (lo hi : Byte) : highByte (joinBytes lo hi) = hi := by
  apply BitVec.eq_of_toNat_eq
  have h := lo.isLt
  rw [toNat_highByte, toNat_joinBytes]; omega

theorem toNat_zext16 (b : Byte) : (zext16 b).toNat = b.toNat := by
  have h := b.isLt
  simp [zext16]; omega

theorem toInt_sext16 (b : Byte) : (sext16 b).toInt = b.toInt := by
  simp [sext16, BitVec.toInt_signExtend_of_le]

/-- `sext_16(b)` is b below 128 and b + 0xFF00 from there (00_scope.md R10). -/
theorem toNat_sext16 : ∀ b : Byte, (sext16 b).toNat = if b.toNat < 128 then b.toNat else b.toNat + 0xFF00 := by decide

@[simp] theorem lowByte_zext16 : ∀ b : Byte, lowByte (zext16 b) = b := by decide

@[simp] theorem lowByte_sext16 : ∀ b : Byte, lowByte (sext16 b) = b := by decide

theorem zext16_lowByte {v : Word} (h : v.toNat < 256) : zext16 (lowByte v) = v := by
  apply BitVec.eq_of_toNat_eq
  rw [toNat_zext16, toNat_lowByte]; omega

theorem sext16_lowByte {v : Word} (h : v.toNat < 128 ∨ 65408 ≤ v.toNat) : sext16 (lowByte v) = v := by
  apply BitVec.eq_of_toNat_eq
  have hv := v.isLt
  rw [toNat_sext16, toNat_lowByte]
  split <;> omega

theorem immFitsRI_zext16 (b : Byte) : immFitsRI .byte (zext16 b) = true := by
  have h := b.isLt
  simp only [immFitsRI, toNat_zext16, decide_eq_true_eq]; omega

theorem immFitsMI_sext16 (w : Width) (b : Byte) : immFitsMI true w (sext16 b) = true := by
  have h := b.isLt
  simp only [immFitsMI, toNat_sext16, decide_eq_true_eq]; split <;> omega

/-! ## `need` and the cursor -/

@[simp] theorem need_cons (b : Byte) (bs : List Byte) : need (b :: bs) = .ok (b, bs) := rfl

@[simp] theorem need_nil : need [] = .error .truncatedInput := rfl

theorem need_eq_ok {bs : List Byte} {b : Byte} {rest : List Byte} : need bs = .ok (b, rest) ↔ bs = b :: rest := by
  cases bs <;> simp

theorem need_eq_error {bs : List Byte} {e : DecodeError} : need bs = .error e ↔ bs = [] ∧ e = .truncatedInput := by
  cases bs <;> simp [eq_comm]

/-- The decoder's `need` is the cursor's `next()` with EndOfInput mapped to TruncatedInput (40_decoder.md R134), on the bytes
the cursor has still to give. -/
theorem Cursor.next_spec (c : Cursor) :
    need c.rest = match c.next.1 with
      | some b => .ok (b, c.next.2.rest)
      | none => .error .truncatedInput := by
  obtain ⟨code, pos⟩ := c
  by_cases h : pos < code.length
  · simp only [Cursor.rest, Cursor.next, Cursor.peek, codeRead, List.getElem?_eq_getElem h]
    rw [List.drop_eq_getElem_cons h, need_cons]
  · simp only [Cursor.rest, Cursor.next, Cursor.peek, codeRead, List.getElem?_eq_none (Nat.le_of_not_lt h)]
    rw [List.drop_eq_nil_of_le (Nat.le_of_not_lt h), need_nil]

/-- A bind that answers: both parts answer. -/
theorem bind_eq_ok {α β : Type} {x : Except DecodeError α} {f : α → Except DecodeError β} {r : β} :
    (x >>= f) = .ok r ↔ ∃ a, x = .ok a ∧ f a = .ok r := by
  cases x <;> simp [bind, Except.bind]

/-- A bind that fails: the first part fails, or the second does after it. -/
theorem bind_eq_error {α β : Type} {x : Except DecodeError α} {f : α → Except DecodeError β} {e : DecodeError} :
    (x >>= f) = .error e ↔ x = .error e ∨ ∃ a, x = .ok a ∧ f a = .error e := by
  cases x <;> simp [bind, Except.bind]

theorem need16_eq_ok {bs : List Byte} {v : Word} {rest : List Byte} :
    need16 bs = .ok (v, rest) ↔ bs = bytesOfWord v ++ rest := by
  constructor
  · intro h
    simp only [need16, bind_eq_ok, need_eq_ok, Prod.exists] at h
    obtain ⟨lo, bs1, rfl, hi, bs2, rfl, h⟩ := h
    cases h
    simp [bytesOfWord]
  · rintro rfl
    simp [need16, bytesOfWord, bind, Except.bind]

theorem need16_eq_error {bs : List Byte} {e : DecodeError} :
    need16 bs = .error e ↔ bs.length < 2 ∧ e = .truncatedInput := by
  match bs with
  | [] => simp [need16, bind, Except.bind, eq_comm]
  | [b] => simp [need16, bind, Except.bind, eq_comm]
  | b :: c :: bs => simp [need16, bind, Except.bind]

/-! ## The r/m operand -/

/-- What `rmOperand` answers is well formed, and the bytes it read are the operand's displacement bytes. -/
theorem rmOperand_eq_ok {b1 : Byte} {bs rest : List Byte} {r : RM}
    (h : rmOperand (modField b1) (rmField b1) bs = .ok (r, rest)) :
    r.wf = true ∧ b1 :: bs = encodeRM (regField b1) r ++ rest := by
  obtain ⟨m, g, n, rfl⟩ : ∃ m g n, b1 = modeByte m g n := ⟨_, _, _, (modeByte_fields b1).symm⟩
  simp only [modField_modeByte, regField_modeByte, rmField_modeByte] at h ⊢
  unfold rmOperand at h
  split at h
  · next hm => cases h; simp [RM.wf, encodeRM, hm]
  split at h
  · next hm =>
    split at h
    · next hn =>
      simp only [bind_eq_ok, need16_eq_ok, Prod.exists] at h
      obtain ⟨a, bs1, rfl, h⟩ := h
      cases h
      simp [RM.wf, encodeRM, hm, hn]
    · next hn =>
      cases h
      simp [RM.wf, encodeRM, hm, baseOfBits_eq_bp, hn]
  split at h
  · next hm =>
    simp only [bind_eq_ok, need_eq_ok, Prod.exists] at h
    obtain ⟨a, bs1, rfl, h⟩ := h
    cases h
    simp [RM.wf, encodeRM, hm]
  · next h1 h2 h3 =>
    simp only [bind_eq_ok, need16_eq_ok, Prod.exists] at h
    obtain ⟨a, bs1, rfl, h⟩ := h
    cases h
    have hm : m = 0b10#2 := by revert h1 h2 h3; revert m; decide
    simp [RM.wf, encodeRM, hm]

/-- `rmOperand` reads back a well-formed operand. -/
theorem rmOperand_encodeRM (reg : BitVec 3) (r : RM) (rest : List Byte) (h : r.wf = true) :
    ∃ b1 ds, encodeRM reg r = b1 :: ds ∧ regField b1 = reg ∧
      rmOperand (modField b1) (rmField b1) (ds ++ rest) = .ok (r, rest) := by
  cases r with
  | register n =>
    exact ⟨_, _, rfl, regField_modeByte _ _ _, by simp [modField_modeByte, rmField_modeByte, rmOperand]⟩
  | noDisp b =>
    have hb : b.bits ≠ 0b110#3 := by
      rw [Ne, bits_eq_direct]; simpa [RM.wf] using h
    exact ⟨_, _, rfl, regField_modeByte _ _ _, by
      simp [modField_modeByte, rmField_modeByte, rmOperand, hb]⟩
  | direct a =>
    refine ⟨_, _, rfl, regField_modeByte _ _ _, ?_⟩
    simp [modField_modeByte, rmField_modeByte, rmOperand, bind_eq_ok, need16_eq_ok]
  | disp8 b d =>
    refine ⟨_, _, rfl, regField_modeByte _ _ _, ?_⟩
    simp [modField_modeByte, rmField_modeByte, rmOperand, bind_eq_ok]
  | disp16 b d =>
    refine ⟨_, _, rfl, regField_modeByte _ _ _, ?_⟩
    simp [modField_modeByte, rmField_modeByte, rmOperand, bind_eq_ok, need16_eq_ok]

/-- `rmOperand` never answers UnrecognizedOpcode (40_decoder.md R126), and fails only for want of displacement bytes: then the
bytes present are a proper prefix of an operand's. -/
theorem rmOperand_eq_error {b1 : Byte} {bs : List Byte} {e : DecodeError}
    (h : rmOperand (modField b1) (rmField b1) bs = .error e) :
    e = .truncatedInput ∧ ∃ r : RM, r.wf = true ∧ ∃ more, more ≠ [] ∧
      b1 :: (bs ++ more) = encodeRM (regField b1) r := by
  obtain ⟨m, g, n, rfl⟩ : ∃ m g n, b1 = modeByte m g n := ⟨_, _, _, (modeByte_fields b1).symm⟩
  simp only [modField_modeByte, regField_modeByte, rmField_modeByte] at h ⊢
  have two : ∀ {bs : List Byte}, bs.length < 2 → ∃ (v : Word) (more : List Byte), more ≠ [] ∧
      bs ++ more = bytesOfWord v := by
    intro bs hb
    match bs, hb with
    | [], _ => exact ⟨0, bytesOfWord 0, by simp [bytesOfWord], rfl⟩
    | [b], _ => exact ⟨joinBytes b 0, [0], by simp, by simp [bytesOfWord]⟩
  unfold rmOperand at h
  split at h
  · cases h
  split at h
  · next hm =>
    split at h
    · next hn =>
      simp only [bind_eq_error, need16_eq_error] at h
      rcases h with ⟨hb, rfl⟩ | ⟨a, -, h⟩
      · obtain ⟨v, more, hne, hv⟩ := two hb
        exact ⟨rfl, .direct v, rfl, more, hne, by simp [encodeRM, hm, hn, hv]⟩
      · cases h
    · cases h
  split at h
  · next hm =>
    simp only [bind_eq_error, need_eq_error] at h
    rcases h with ⟨rfl, rfl⟩ | ⟨a, -, h⟩
    · exact ⟨rfl, .disp8 (baseOfBits n) 0, rfl, [0], by simp, by simp [encodeRM, hm]⟩
    · cases h
  · next h1 h2 h3 =>
    simp only [bind_eq_error, need16_eq_error] at h
    have hm : m = 0b10#2 := by revert h1 h2 h3; revert m; decide
    rcases h with ⟨hb, rfl⟩ | ⟨a, -, h⟩
    · obtain ⟨v, more, hne, hv⟩ := two hb
      exact ⟨rfl, .disp16 (baseOfBits n) v, rfl, more, hne, by simp [encodeRM, hm, hv]⟩
    · cases h

/-! ## Immediates -/

theorem immRI_eq_ok {w : Width} {bs rest : List Byte} {v : Word} :
    immRI w bs = .ok (v, rest) ↔ immFitsRI w v = true ∧ bs = encodeImmRI w v ++ rest := by
  cases w with
  | byte =>
    constructor
    · intro h
      simp only [immRI, bind_eq_ok, need_eq_ok, Prod.exists] at h
      obtain ⟨b, bs1, rfl, h⟩ := h
      cases h
      exact ⟨immFitsRI_zext16 b, by simp [encodeImmRI]⟩
    · rintro ⟨h, rfl⟩
      simp only [immFitsRI, decide_eq_true_eq] at h
      simp [immRI, encodeImmRI, bind, Except.bind, zext16_lowByte h]
  | word => simp [immRI, encodeImmRI, immFitsRI, need16_eq_ok]

theorem immMI_eq_ok {sx : Bool} {w : Width} {bs rest : List Byte} {v : Word} :
    immMI sx w bs = .ok (v, rest) ↔ immFitsMI sx w v = true ∧ bs = encodeImmMI sx w v ++ rest := by
  cases sx with
  | true =>
    constructor
    · intro h
      simp only [immMI, bind_eq_ok, need_eq_ok, Prod.exists] at h
      obtain ⟨b, bs1, rfl, h⟩ := h
      cases h
      exact ⟨immFitsMI_sext16 w b, by simp [encodeImmMI]⟩
    · rintro ⟨h, rfl⟩
      simp only [immFitsMI, decide_eq_true_eq] at h
      simp [immMI, encodeImmMI, bind, Except.bind, sext16_lowByte h]
  | false =>
    cases w with
    | byte => exact immRI_eq_ok (w := .byte)
    | word => exact immRI_eq_ok (w := .word)

theorem immRI_eq_error {w : Width} {bs : List Byte} {e : DecodeError} (h : immRI w bs = .error e) :
    e = .truncatedInput ∧ ∃ v : Word, immFitsRI w v = true ∧ ∃ more, more ≠ [] ∧ bs ++ more = encodeImmRI w v := by
  cases w with
  | byte =>
    simp only [immRI, bind_eq_error, need_eq_error] at h
    rcases h with ⟨rfl, rfl⟩ | ⟨a, -, h⟩
    · exact ⟨rfl, 0, rfl, [0], by simp, by decide⟩
    · cases h
  | word =>
    rw [immRI, need16_eq_error] at h
    obtain ⟨hb, rfl⟩ := h
    match bs, hb with
    | [], _ => exact ⟨rfl, 0, rfl, bytesOfWord 0, by simp [bytesOfWord], rfl⟩
    | [b], _ => exact ⟨rfl, joinBytes b 0, rfl, [0], by simp, by simp [encodeImmRI, bytesOfWord]⟩

theorem immMI_eq_error {sx : Bool} {w : Width} {bs : List Byte} {e : DecodeError} (h : immMI sx w bs = .error e) :
    e = .truncatedInput ∧ ∃ v : Word, immFitsMI sx w v = true ∧ ∃ more, more ≠ [] ∧ bs ++ more = encodeImmMI sx w v := by
  cases sx with
  | true =>
    simp only [immMI, bind_eq_error, need_eq_error] at h
    rcases h with ⟨rfl, rfl⟩ | ⟨a, -, h⟩
    · exact ⟨rfl, 0, by cases w <;> rfl, [0], by simp, by cases w <;> decide⟩
    · cases h
  | false =>
    cases w with
    | byte => exact immRI_eq_error (w := .byte) h
    | word => exact immRI_eq_error (w := .word) h

/-! ## Lengths -/

@[simp] theorem length_bytesOfWord (v : Word) : (bytesOfWord v).length = 2 := rfl

theorem length_encodeRM (reg : BitVec 3) (r : RM) : (encodeRM reg r).length = 1 + r.dispBytes := by cases r <;> rfl

theorem length_encodeImmRI (w : Width) (v : Word) : (encodeImmRI w v).length = immBytesRI w := by cases w <;> rfl

theorem length_encodeImmMI (sx : Bool) (w : Width) (v : Word) : (encodeImmMI sx w v).length = immBytesMI sx w := by
  cases sx <;> cases w <;> rfl

end Sys2Proof
end

