-- ==== Sys2Proof/Laws/DecodeFormats.lean ====
section
/-! SUPPORT. One spec lemma for each format of the decoder (40_decoder.md R126 to R128): what it answers and how it fails; and
which format a first byte selects (R125). -/

namespace Sys2Proof

/-- The operations of format RM with their opcode bits (30_encoding.md R81). -/
def rmOpcodes : List (AluOp × BitVec 6) :=
  [(.mov, 0b100010#6), (.add, 0b000000#6), (.sub, 0b001010#6), (.cmp, 0b001110#6)]

theorem mem_rmOpcodes {op : AluOp} {o : BitVec 6} : (op, o) ∈ rmOpcodes ↔
    (op = .mov ∧ o = 0b100010#6) ∨ (op = .add ∧ o = 0b000000#6) ∨ (op = .sub ∧ o = 0b001010#6) ∨
      (op = .cmp ∧ o = 0b001110#6) := by
  simp [rmOpcodes]

/-- A row of format RM encodes as that format, and is well formed when its r/m operand is. -/
theorem encode_formRM {op : AluOp} {o : BitVec 6} (hop : (op, o) ∈ rmOpcodes) (d : Bool) (w : Width) (reg : RegNum)
    (rm : RM) : encode (formRM op d w reg rm) = encodeFormRM o d w reg rm ∧ (formRM op d w reg rm).wf = rm.wf := by
  rcases mem_rmOpcodes.1 hop with ⟨rfl, rfl⟩ | ⟨rfl, rfl⟩ | ⟨rfl, rfl⟩ | ⟨rfl, rfl⟩ <;> cases d <;> exact ⟨rfl, rfl⟩

/-! ## Which format a first byte selects -/

theorem opcodeField4_firstByte (o : BitVec 6) (d : Bool) (w : Width) :
    (firstByte o d w).extractLsb' 4 4 = o.extractLsb' 2 4 := by
  cases d <;> cases w <;> revert o <;> decide

theorem decode_firstByte_RM {op : AluOp} {o : BitVec 6} (hop : (op, o) ∈ rmOpcodes) (d : Bool) (w : Width)
    (bs : List Byte) : decode (firstByte o d w :: bs) = decodeRM op (firstByte o d w) bs := by
  simp only [decode, need_cons, bind, Except.bind, opcodeField_firstByte, opcodeField4_firstByte]
  rcases mem_rmOpcodes.1 hop with ⟨rfl, rfl⟩ | ⟨rfl, rfl⟩ | ⟨rfl, rfl⟩ | ⟨rfl, rfl⟩ <;> simp

theorem decode_firstByte_MI (sx : Bool) (w : Width) (bs : List Byte) :
    decode (firstByte 0b100000#6 sx w :: bs) = decodeMI (firstByte 0b100000#6 sx w) bs := by
  simp only [decode, need_cons, bind, Except.bind, opcodeField_firstByte, opcodeField4_firstByte]
  simp

theorem decode_firstByteRI (w : Width) (n : RegNum) (bs : List Byte) :
    decode (firstByteRI w n :: bs) = decodeRI (firstByteRI w n) bs := by
  have h : ∀ (w : Width) (n : RegNum), (firstByteRI w n).extractLsb' 2 6 ≠ 0b100010#6 := by
    intro w; cases w <;> decide
  simp only [decode, need_cons, bind, Except.bind, h, opcodeFieldRI_firstByteRI, if_false, if_true]

/-- The tests of the first byte as ranges of numbers (30_encoding.md R100). -/
theorem firstByte_ranges : ∀ b : Byte,
    (b.extractLsb' 2 6 = 0b100010#6 ↔ 0x88 ≤ b.toNat ∧ b.toNat ≤ 0x8B) ∧
    (b.extractLsb' 4 4 = 0b1011#4 ↔ 0xB0 ≤ b.toNat ∧ b.toNat ≤ 0xBF) ∧
    (b.extractLsb' 2 6 = 0b000000#6 ↔ b.toNat ≤ 0x03) ∧
    (b.extractLsb' 2 6 = 0b001010#6 ↔ 0x28 ≤ b.toNat ∧ b.toNat ≤ 0x2B) ∧
    (b.extractLsb' 2 6 = 0b001110#6 ↔ 0x38 ≤ b.toNat ∧ b.toNat ≤ 0x3B) ∧
    (b.extractLsb' 2 6 = 0b100000#6 ↔ 0x80 ≤ b.toNat ∧ b.toNat ≤ 0x83) ∧
    (b = 0x75#8 ↔ b.toNat = 0x75) := by decide

/-! ## Format RM -/

/-- Format RM reads back a well-formed operand. -/
theorem decodeRM_encodeRM (op : AluOp) (b0 : Byte) (reg : RegNum) (rm : RM) (rest : List Byte) (h : rm.wf = true) :
    decodeRM op b0 (encodeRM reg rm ++ rest) = .ok (formRM op (bit1Field b0) (wField b0) reg rm, rest) := by
  obtain ⟨b1, ds, he, hr, ho⟩ := rmOperand_encodeRM reg rm rest h
  rw [he]
  simp only [decodeRM, List.cons_append, need_cons, bind, Except.bind, ho, hr]

/-- What format RM answers. -/
theorem decodeRM_eq_ok {op : AluOp} {b0 : Byte} {bs rest : List Byte} {i : Instr} (h : decodeRM op b0 bs = .ok (i, rest)) :
    ∃ reg rm, rm.wf = true ∧ bs = encodeRM reg rm ++ rest ∧ i = formRM op (bit1Field b0) (wField b0) reg rm := by
  simp only [decodeRM, bind_eq_ok, need_eq_ok, Prod.exists] at h
  obtain ⟨b1, bs1, rfl, rm, bs2, hr, h⟩ := h
  cases h
  obtain ⟨hw, he⟩ := rmOperand_eq_ok hr
  exact ⟨_, rm, hw, he, rfl⟩

/-- Format RM fails only for want of bytes: those present are a proper prefix of an operand's. -/
theorem decodeRM_eq_error {op : AluOp} {b0 : Byte} {bs : List Byte} {e : DecodeError} (h : decodeRM op b0 bs = .error e) :
    e = .truncatedInput ∧ ∃ reg rm, rm.wf = true ∧ ∃ more, more ≠ [] ∧ bs ++ more = encodeRM reg rm := by
  simp only [decodeRM, bind_eq_error, need_eq_error, need_eq_ok, Prod.exists] at h
  rcases h with ⟨rfl, rfl⟩ | ⟨b1, bs1, rfl, h | ⟨_, _, _, h⟩⟩
  · exact ⟨rfl, 0, .register 0, rfl, encodeRM 0 (.register 0), by simp [encodeRM], rfl⟩
  · obtain ⟨rfl, r, hw, more, hm, he⟩ := rmOperand_eq_error h
    exact ⟨rfl, _, r, hw, more, hm, he⟩
  · cases h

/-! ## Format RI -/

/-- What format RI answers. -/
theorem decodeRI_eq_ok {b0 : Byte} {bs rest : List Byte} {i : Instr} :
    decodeRI b0 bs = .ok (i, rest) ↔
      ∃ v, immFitsRI (wFieldRI b0) v = true ∧ bs = encodeImmRI (wFieldRI b0) v ++ rest ∧
        i = .movRegImm (wFieldRI b0) (regFieldRI b0) v := by
  simp only [decodeRI, bind_eq_ok, immRI_eq_ok, Prod.exists, Except.ok.injEq, Prod.mk.injEq]
  constructor
  · rintro ⟨v, bs1, ⟨hf, rfl⟩, rfl, rfl⟩
    exact ⟨v, hf, rfl, rfl⟩
  · rintro ⟨v, hf, rfl, rfl⟩
    exact ⟨v, rest, ⟨hf, rfl⟩, rfl, rfl⟩

/-- Format RI fails only for want of bytes. -/
theorem decodeRI_eq_error {b0 : Byte} {bs : List Byte} {e : DecodeError} (h : decodeRI b0 bs = .error e) :
    e = .truncatedInput ∧ ∃ v, immFitsRI (wFieldRI b0) v = true ∧ ∃ more, more ≠ [] ∧
      bs ++ more = encodeImmRI (wFieldRI b0) v := by
  simp only [decodeRI, bind_eq_error, Prod.exists] at h
  rcases h with h | ⟨_, _, _, h⟩
  · exact immRI_eq_error h
  · cases h

/-! ## Format MI -/

/-- The sub-opcodes (30_encoding.md R101). -/
theorem subOpcode_eq_some {g : BitVec 3} {op : AluOp} : subOpcode g = some op ↔
    (op = .add ∧ g = 0b000#3) ∨ (op = .sub ∧ g = 0b101#3) ∨ (op = .cmp ∧ g = 0b111#3) := by
  revert g; cases op <;> decide

theorem subOpcode_eq_none : ∀ b : Byte, subOpcode (regField b) = none ↔
    b.toNat / 8 % 8 ≠ 0 ∧ b.toNat / 8 % 8 ≠ 5 ∧ b.toNat / 8 % 8 ≠ 7 := by decide

/-- A row of format MI encodes as that format with its sub-opcode, and is well formed when its two parts are. -/
theorem encode_formMI {g : BitVec 3} {op : AluOp} (h : subOpcode g = some op) (sx : Bool) (w : Width) (rm : RM) (v : Word) :
    ∃ i, formMI op sx w rm v = some i ∧ encode i = encodeFormMI g sx w rm v ∧ i.wf = (rm.wf && immFitsMI sx w v) := by
  rcases subOpcode_eq_some.1 h with ⟨rfl, rfl⟩ | ⟨rfl, rfl⟩ | ⟨rfl, rfl⟩ <;> exact ⟨_, rfl, rfl, rfl⟩

/-- Format MI reads back a well-formed instruction. -/
theorem decodeMI_encode {g : BitVec 3} {op : AluOp} (hg : subOpcode g = some op) {sx : Bool} {w : Width} {rm : RM} {v : Word}
    (rest : List Byte) (h : rm.wf = true) (hi : immFitsMI sx w v = true) {i : Instr} (hf : formMI op sx w rm v = some i) :
    decodeMI (firstByte 0b100000#6 sx w) (encodeRM g rm ++ (encodeImmMI sx w v ++ rest)) = .ok (i, rest) := by
  obtain ⟨b1, ds, he, hr, ho⟩ := rmOperand_encodeRM g rm (encodeImmMI sx w v ++ rest) h
  rw [he]
  simp only [decodeMI, List.cons_append, need_cons, bind, Except.bind, ho, bit1Field_firstByte, wField_firstByte, hr, hg,
    immMI_eq_ok.2 ⟨hi, rfl⟩, hf]

/-- What format MI answers. -/
theorem decodeMI_eq_ok {b0 : Byte} {bs rest : List Byte} {i : Instr} (h : decodeMI b0 bs = .ok (i, rest)) :
    ∃ g op rm v, subOpcode g = some op ∧ rm.wf = true ∧ immFitsMI (bit1Field b0) (wField b0) v = true ∧
      bs = encodeRM g rm ++ (encodeImmMI (bit1Field b0) (wField b0) v ++ rest) ∧
      formMI op (bit1Field b0) (wField b0) rm v = some i := by
  simp only [decodeMI, bind_eq_ok, need_eq_ok, Prod.exists] at h
  obtain ⟨b1, bs1, rfl, h⟩ := h
  split at h
  · cases h
  next op hop =>
  simp only [bind_eq_ok, Prod.exists] at h
  obtain ⟨rm, bs2, hr, v, bs3, hi, h⟩ := h
  obtain ⟨hw, he⟩ := rmOperand_eq_ok hr
  obtain ⟨hf, rfl⟩ := immMI_eq_ok.1 hi
  obtain ⟨j, hj, -, -⟩ := encode_formMI hop (bit1Field b0) (wField b0) rm v
  rw [hj] at h
  cases h
  exact ⟨_, op, rm, v, hop, hw, hf, he, hj⟩

/-- Format MI fails with UnrecognizedOpcode at a bad sub-opcode, before any further byte (30_encoding.md R105), and with
TruncatedInput for want of bytes. -/
theorem decodeMI_eq_error {b0 : Byte} {bs : List Byte} {e : DecodeError} (h : decodeMI b0 bs = .error e) :
    (e = .unrecognizedOpcode ∧ ∃ b1 bs1, bs = b1 :: bs1 ∧ subOpcode (regField b1) = none) ∨
    (e = .truncatedInput ∧ ∃ g op rm v, subOpcode g = some op ∧ rm.wf = true ∧
      immFitsMI (bit1Field b0) (wField b0) v = true ∧ ∃ more, more ≠ [] ∧
        bs ++ more = encodeRM g rm ++ encodeImmMI (bit1Field b0) (wField b0) v) := by
  have imm0 : immFitsMI (bit1Field b0) (wField b0) 0 = true := by cases bit1Field b0 <;> cases wField b0 <;> rfl
  simp only [decodeMI, bind_eq_error, need_eq_error, need_eq_ok, Prod.exists] at h
  rcases h with ⟨rfl, rfl⟩ | ⟨b1, bs1, rfl, h⟩
  · exact .inr ⟨rfl, 0b000#3, .add, .register 0, 0, by decide, rfl, imm0, _, by simp, rfl⟩
  split at h
  · next hs =>
    cases h
    exact .inl ⟨rfl, b1, bs1, rfl, hs⟩
  next op hop =>
  simp only [bind_eq_error, Prod.exists] at h
  refine .inr ?_
  rcases h with h | ⟨rm, bs2, hr, h | ⟨v, bs3, hv, h⟩⟩
  · obtain ⟨rfl, r, hw, more, hm, he⟩ := rmOperand_eq_error h
    refine ⟨rfl, _, op, r, 0, hop, hw, imm0, more ++ encodeImmMI (bit1Field b0) (wField b0) 0, by simp [hm], ?_⟩
    rw [← he]; simp
  · obtain ⟨rfl, v, hf, more, hm, he⟩ := immMI_eq_error h
    obtain ⟨hw, he'⟩ := rmOperand_eq_ok hr
    refine ⟨rfl, _, op, rm, v, hop, hw, hf, more, hm, ?_⟩
    rw [← he, he', List.append_assoc]
  · obtain ⟨j, hj, -, -⟩ := encode_formMI hop (bit1Field b0) (wField b0) rm v
    rw [hj] at h
    cases h

end Sys2Proof
end

