-- ==== Sys2Proof/Laws/Operands.lean ====
section
/-! SUPPORT. The operand bytes of the spec's tables (`RmBytes`, `ImmBytesRI`, `ImmBytesMI`) are what the encoder writes for one
well-formed operand. -/

namespace Sys2Proof.Machine

theorem mem_baseTable : ∀ {n : BitVec 3} {b : BaseRegs}, (n, b) ∈ baseTable → n = b.bits := by
  intro n b
  cases b <;> revert n <;> decide

theorem WordOf.eq_joinBytes {lo hi : Byte} {v : Word} (h : WordOf lo hi v) : v = joinBytes lo hi :=
  BitVec.eq_of_toNat_eq (h.trans (toNat_joinBytes lo hi).symm)

theorem eq_sext16 {b : Byte} {v : Word} (h : v.toInt = b.toInt) : v = sext16 b :=
  BitVec.eq_of_toInt_eq (h.trans (toInt_sext16 b).symm)

theorem eq_zext16 {b : Byte} {v : Word} (h : v.toNat = b.toNat) : v = zext16 b :=
  BitVec.eq_of_toNat_eq (h.trans (toNat_zext16 b).symm)

/-- Operand bytes are the encoding of one r/m operand, which names the operand they spell. -/
theorem RmBytes.exists_rm {w : Width} {reg : BitVec 3} {bs : List Byte} {p : Place} (h : RmBytes w reg bs p) :
    ∃ rm : RM, rm.wf = true ∧ encodeRM reg rm = bs ∧ rmPlace w rm = p ∧ 1 + rm.dispBytes = bs.length := by
  obtain ⟨n, ⟨rfl, rfl⟩ | ⟨rfl, lo, hi, v, hv, rfl, rfl⟩ | ⟨b, hb, ⟨hn, rfl, rfl⟩ | ⟨d, v, hv, rfl, rfl⟩ |
    ⟨lo, hi, v, hv, rfl, rfl⟩⟩⟩ := h
  · exact ⟨.register n, rfl, rfl, rfl, rfl⟩
  · obtain rfl := hv.eq_joinBytes
    exact ⟨.direct _, rfl, by simp [encodeRM, bytesOfWord, modeByte], rfl, rfl⟩
  · obtain rfl := mem_baseTable hb
    exact ⟨.noDisp b, by simpa [RM.wf, bits_eq_direct] using hn, rfl, rfl, rfl⟩
  · obtain rfl := mem_baseTable hb
    obtain rfl := eq_sext16 hv
    exact ⟨.disp8 b d, rfl, rfl, rfl, rfl⟩
  · obtain rfl := mem_baseTable hb
    obtain rfl := hv.eq_joinBytes
    exact ⟨.disp16 b _, rfl, by simp [encodeRM, bytesOfWord, modeByte], rfl, rfl⟩

/-- Immediate bytes of format RI are the encoding of their value, which fits. -/
theorem ImmBytesRI.encodes {w : Width} {bs : List Byte} {v : Word} (h : ImmBytesRI w bs v) :
    immFitsRI w v = true ∧ encodeImmRI w v = bs ∧ immBytesRI w = bs.length := by
  cases w with
  | byte =>
    obtain ⟨b, rfl, hv⟩ := h
    obtain rfl := eq_zext16 hv
    exact ⟨immFitsRI_zext16 b, by simp [encodeImmRI], rfl⟩
  | word =>
    obtain ⟨lo, hi, rfl, hv⟩ := h
    obtain rfl := hv.eq_joinBytes
    exact ⟨rfl, by simp [encodeImmRI, bytesOfWord], rfl⟩

/-- Immediate bytes of format MI are the encoding of their value, which fits. -/
theorem ImmBytesMI.encodes {sx : Bool} {w : Width} {bs : List Byte} {v : Word} (h : ImmBytesMI sx w bs v) :
    immFitsMI sx w v = true ∧ encodeImmMI sx w v = bs ∧ immBytesMI sx w = bs.length := by
  cases sx with
  | true =>
    obtain ⟨b, rfl, hv⟩ := h
    obtain rfl := eq_sext16 hv
    exact ⟨immFitsMI_sext16 w b, by simp [encodeImmMI], rfl⟩
  | false =>
    have h : ImmBytesRI w bs v := by simpa [ImmBytesMI] using h
    cases w <;> exact h.encodes

end Sys2Proof.Machine
end

