-- ==== Sys2Proof/Laws/PerInstr.lean ====
section
/-! SUPPORT. The per-instruction family `Length`: the encoding of an instruction has the length that 30_encoding.md R85 gives
it, from 2 to 6 bytes. -/

namespace Sys2Proof.Laws.Length

/-- The encoder's output has `Instr.size` bytes, and that is 2 to MAXILEN (30_encoding.md R85). -/
def Statement (i : Instr) : Prop := (encode i).length = i.size ∧ 2 ≤ i.size ∧ i.size ≤ Config.maxInstrLen

theorem dispBytes_le (rm : RM) : rm.dispBytes ≤ 2 := by cases rm <;> simp [RM.dispBytes]

theorem immBytesRI_bounds (w : Width) : 1 ≤ immBytesRI w ∧ immBytesRI w ≤ 2 := by cases w <;> simp [immBytesRI]

theorem immBytesMI_bounds (sx : Bool) (w : Width) : 1 ≤ immBytesMI sx w ∧ immBytesMI sx w ≤ 2 := by
  cases sx <;> cases w <;> simp [immBytesMI]

/-- Format RM (30_encoding.md R81): 2 to 4 bytes. -/
theorem of_formRM {i : Instr} {opcode : BitVec 6} {d : Bool} {w : Width} {reg : RegNum} {rm : RM}
    (he : encode i = encodeFormRM opcode d w reg rm) (hs : i.size = 2 + rm.dispBytes) : Statement i := by
  have h := dispBytes_le rm
  rw [Statement, he, hs, encodeFormRM, List.length_cons, length_encodeRM, Config.maxInstrLen]
  omega

/-- Format MI (30_encoding.md R83): 3 to 6 bytes. -/
theorem of_formMI {i : Instr} {sub : BitVec 3} {sx : Bool} {w : Width} {rm : RM} {imm : Word}
    (he : encode i = encodeFormMI sub sx w rm imm) (hs : i.size = 2 + rm.dispBytes + immBytesMI sx w) : Statement i := by
  have h := dispBytes_le rm
  have h' := immBytesMI_bounds sx w
  rw [Statement, he, hs, encodeFormMI, List.length_cons, List.length_append, length_encodeRM, length_encodeImmMI,
    Config.maxInstrLen]
  omega

theorem movRmReg (w : Width) (reg : RegNum) (rm : RM) : Statement (.movRmReg w reg rm) := of_formRM rfl rfl

theorem movRegRm (w : Width) (reg : RegNum) (rm : RM) : Statement (.movRegRm w reg rm) := of_formRM rfl rfl

/-- Format RI (30_encoding.md R82): 2 or 3 bytes. -/
theorem movRegImm (w : Width) (reg : RegNum) (imm : Word) : Statement (.movRegImm w reg imm) := by
  have h := immBytesRI_bounds w
  rw [Statement, encode, List.length_cons, length_encodeImmRI, Instr.size, Config.maxInstrLen]
  omega

theorem addRmReg (w : Width) (reg : RegNum) (rm : RM) : Statement (.addRmReg w reg rm) := of_formRM rfl rfl

theorem addRegRm (w : Width) (reg : RegNum) (rm : RM) : Statement (.addRegRm w reg rm) := of_formRM rfl rfl

theorem addRmImm (sx : Bool) (w : Width) (rm : RM) (imm : Word) : Statement (.addRmImm sx w rm imm) := of_formMI rfl rfl

theorem subRmReg (w : Width) (reg : RegNum) (rm : RM) : Statement (.subRmReg w reg rm) := of_formRM rfl rfl

theorem subRegRm (w : Width) (reg : RegNum) (rm : RM) : Statement (.subRegRm w reg rm) := of_formRM rfl rfl

theorem subRmImm (sx : Bool) (w : Width) (rm : RM) (imm : Word) : Statement (.subRmImm sx w rm imm) := of_formMI rfl rfl

theorem cmpRmReg (w : Width) (reg : RegNum) (rm : RM) : Statement (.cmpRmReg w reg rm) := of_formRM rfl rfl

theorem cmpRegRm (w : Width) (reg : RegNum) (rm : RM) : Statement (.cmpRegRm w reg rm) := of_formRM rfl rfl

theorem cmpRmImm (sx : Bool) (w : Width) (rm : RM) (imm : Word) : Statement (.cmpRmImm sx w rm imm) := of_formMI rfl rfl

theorem jne (disp : Byte) : Statement (.jne disp) := by simp [Statement, encode, Instr.size, Config.maxInstrLen]

end Sys2Proof.Laws.Length
end

