-- ==== Sys2Proof/Laws/Step.lean ====
section
/-! SUPPORT. What `exec` and `step` can do, each said once. -/

namespace Sys2Proof.Machine

/-- `exec` of anything but JNE is the common semantics on the instruction's record; JNE is the branch resolver. -/
theorem exec_cases (i : Instr) (s : State) :
    (∃ op dst src, recordOf i = aluRecord op dst src i.size ∧ exec i s = .next (aluStep op dst src i.size s)) ∨
    (∃ d, i = .jne d ∧
      exec i s = .next (s.setPc (nextPc s.flags (advancePc s.pc 2) (sext16 d)))) := by
  cases i
  case jne d => exact .inr ⟨d, rfl, rfl⟩
  all_goals exact .inl ⟨_, _, _, rfl, rfl⟩

/-- The common semantics of an instruction whose record is known. -/
theorem exec_of_record {i : Instr} {op : AluOp} {dst : Place} {src : Operand} (s : State)
    (hop : (recordOf i).op = .alu op) (h0 : (recordOf i).operand0 = .place dst)
    (h1 : (recordOf i).operand1 = some src) : exec i s = .next (aluStep op dst src i.size s) := by
  cases i <;> cases hop <;> cases h0 <;> cases h1 <;> rfl

@[simp] theorem executable_eq_true (op : Op) : executable op = true := by rcases op with (_ | _ | _ | _) | _ <;> rfl

/-- Fetch is decode on the bytes from the pc on. -/
theorem fetch_eq_ok {s : State} {i : Instr} {n : Nat} :
    fetch s = .ok (i, n) ↔ ∃ rest, decode (s.code.drop s.pc.toNat) = .ok (i, rest) ∧
      n = (s.code.drop s.pc.toNat).length - rest.length := by
  unfold fetch decodeAt Cursor.rest
  cases h : decode (s.code.drop s.pc.toNat) with
  | error e => simp
  | ok r => obtain ⟨j, rest⟩ := r; simp [eq_comm]

theorem fetch_eq_error {s : State} {e : DecodeError} :
    fetch s = .error e ↔ decode (s.code.drop s.pc.toNat) = .error e := by
  unfold fetch decodeAt Cursor.rest
  cases h : decode (s.code.drop s.pc.toNat) with
  | error e' => simp
  | ok r => obtain ⟨j, rest⟩ := r; simp

/-- A running machine within the premise takes a running step. -/
theorem step_of_ready {s : State} (h : s.ready) : step s = runningStep s := by
  obtain ⟨hr, hl⟩ := h
  simp [step, sequencerStep, hr, Nat.not_lt.2 hl]

/-- The running step, where the loop test ends the run. -/
theorem runningStep_halts {s : State} (h : s.len ≤ s.pc.toNat) : runningStep s = .next (haltRun s) := by
  simp [runningStep, h]

/-- The running step, where the decoder fails. -/
theorem runningStep_faults {s : State} {e : DecodeError} (h : s.pc.toNat < s.len)
    (hd : decode (s.code.drop s.pc.toNat) = .error e) : runningStep s = .next (takeFault (faultOfDecodeError e) s) := by
  simp [runningStep, Nat.not_le.2 h, fetch_eq_error.2 hd]

/-- The running step, where an instruction is decoded. -/
theorem runningStep_executes {s : State} {i : Instr} {rest : List Byte} (h : s.pc.toNat < s.len)
    (hd : decode (s.code.drop s.pc.toNat) = .ok (i, rest)) : runningStep s = exec i s := by
  simp [runningStep, Nat.not_le.2 h, fetch_eq_ok.2 ⟨rest, hd, rfl⟩]

/-- Everything a step that answers a next state can be. -/
theorem step_cases {s t : State} (h : step s = .next t) :
    s.ready ∧
    ((s.len ≤ s.pc.toNat ∧ t = haltRun s) ∨
     (s.pc.toNat < s.len ∧ ∃ e, decode (s.code.drop s.pc.toNat) = .error e ∧ t = takeFault (faultOfDecodeError e) s) ∨
     (s.pc.toNat < s.len ∧ ∃ i rest, decode (s.code.drop s.pc.toNat) = .ok (i, rest) ∧ exec i s = .next t)) := by
  have hready : s.ready := by
    cases hr : s.run with
    | halted => simp [step, sequencerStep, hr] at h
    | faulted c => simp [step, sequencerStep, hr] at h
    | running =>
      refine ⟨hr, ?_⟩
      by_cases hl : Config.maxLen < s.len
      · simp [step, sequencerStep, hr, hl] at h
      · exact Nat.not_lt.1 hl
  refine ⟨hready, ?_⟩
  rw [step_of_ready hready] at h
  by_cases hp : s.len ≤ s.pc.toNat
  · rw [runningStep_halts hp] at h
    cases h
    exact .inl ⟨hp, rfl⟩
  · have hp := Nat.not_le.1 hp
    cases hd : decode (s.code.drop s.pc.toNat) with
    | error e =>
      rw [runningStep_faults hp hd] at h
      cases h
      exact .inr (.inl ⟨hp, e, rfl, rfl⟩)
    | ok r =>
      obtain ⟨i, rest⟩ := r
      rw [runningStep_executes hp hd] at h
      exact .inr (.inr ⟨hp, i, rest, rfl, h⟩)

/-- What every executed instruction keeps: RUN, CODE, and the canonical form of DM. -/
theorem exec_keeps {i : Instr} {s t : State} (h : exec i s = .next t) :
    t.run = s.run ∧ t.code = s.code ∧ (s.dm.wf → t.dm.wf) := by
  rcases exec_cases i s with ⟨op, dst, src, -, he⟩ | ⟨d, -, he⟩
  · rw [he] at h
    cases h
    exact ⟨aluStep_run .., aluStep_code .., aluStep_dm_wf⟩
  · rw [he] at h
    cases h
    exact ⟨rfl, rfl, id⟩

/-- Taking a fault and the normal end of a run change RUN alone (60_exceptions.md R226, 44_sequencer.md R201). -/
@[simp] theorem takeFault_eq (c : FaultCode) (s : State) : takeFault c s = { s with run := .faulted c } := rfl
@[simp] theorem haltRun_eq (s : State) : haltRun s = { s with run := .halted } := rfl

/-! ## Placing bytes for the next fetch -/

theorem length_tableBytes (nbits w : Nat) : (tableBytes nbits w).length = Config.maxInstrLen := by
  unfold tableBytes
  simp only
  split <;> rfl

/-- `placeCode` puts the bytes at the pc of a running machine whose LEN is within the premise, and changes no register, no
cell of DM and not FLAGS. -/
theorem placeCode_spec {bytes : List Byte} (s : State) (h : bytes.length ≤ Config.maxLen) :
    (s.placeCode bytes).ready ∧
    (∃ rest, (s.placeCode bytes).code.drop (s.placeCode bytes).pc.toNat = bytes ++ rest) ∧
    (s.placeCode bytes).rf = s.rf ∧ (s.placeCode bytes).dm = s.dm ∧ (s.placeCode bytes).flags = s.flags := by
  unfold State.placeCode
  split
  · next hc =>
    refine ⟨⟨rfl, ?_⟩, ⟨s.code.drop (s.pc.toNat + bytes.length), ?_⟩, rfl, rfl, rfl⟩
    · simp only [State.len, List.length_append, List.length_take, List.length_replicate, List.length_drop] at hc ⊢
      omega
    · have hl : (s.code.take s.pc.toNat ++ List.replicate (s.pc.toNat - s.len) 0).length = s.pc.toNat := by
        simp only [State.len, List.length_append, List.length_take, List.length_replicate]
        omega
      simp only
      rw [List.append_assoc]
      exact List.drop_left' hl
  · exact ⟨⟨rfl, h⟩, ⟨[], by simp⟩, rfl, rfl, rfl⟩

end Sys2Proof.Machine
end

