-- ==== Sys2Proof/Machine/Display.lean ====
section
/-! DEFINITION. The display syntax of an instruction (30_encoding.md R110 to R112). It carries no behaviour: no step reads it.
DESIGN CHOICE (log 18): an immediate prints as signed decimal when s = 1 and as unsigned decimal otherwise. -/

namespace Sys2Proof.Machine

/-- The register names in index order (10_state.md R21). -/
def regNames : List String :=
  ["ax", "cx", "dx", "bx", "sp", "bp", "si", "di", "al", "cl", "dl", "bl", "ah", "ch", "dh", "bh"]

/-- The name of a register cell (30_encoding.md R110). -/
def regName (i : RegIndex) : String := regNames.getD i.val ""

/-- The text of a base expression (30_encoding.md R111). -/
def baseText : BaseRegs → String
  | .bxSi => "bx + si"
  | .bxDi => "bx + di"
  | .bpSi => "bp + si"
  | .bpDi => "bp + di"
  | .si => "si"
  | .di => "di"
  | .bp => "bp"
  | .bx => "bx"

/-- The displacement, signed decimal; a displacement of exactly zero is not printed (30_encoding.md R111). -/
def dispText (d : Word) : String :=
  if d = 0 then ""
  else if d.toInt < 0 then " - " ++ toString (-d.toInt)
  else " + " ++ toString d.toInt

/-- A place in the text of an operand: a register name or a bracket (30_encoding.md R110, R111). -/
def placeText : Place → String
  | .register i => regName i
  | .memory (.regs b) d => "[" ++ baseText b ++ dispText d ++ "]"
  | .memory .direct a => "[" ++ toString a.toNat ++ "]"

/-- The keyword before a memory destination of format MI (30_encoding.md R112). -/
def sizeKeyword : Width → RM → String
  | _, .register _ => ""
  | .byte, _ => "byte "
  | .word, _ => "word "

/-- An immediate: signed decimal when it was sign-extended, else unsigned decimal (30_encoding.md R110; log 18). -/
def immText (sx : Bool) (v : Word) : String := if sx then toString v.toInt else toString v.toNat

/-- `mnemonic destination, source` (30_encoding.md R110). -/
def twoOperands (mnemonic dst src : String) : String := mnemonic ++ " " ++ dst ++ ", " ++ src

/-- The text of an instruction (30_encoding.md R110 to R112). -/
def instrText : Instr → String
  | .movRmReg w reg rm => twoOperands "mov" (placeText (rmPlace w rm)) (placeText (regPlace w reg))
  | .movRegRm w reg rm => twoOperands "mov" (placeText (regPlace w reg)) (placeText (rmPlace w rm))
  | .movRegImm w reg imm => twoOperands "mov" (placeText (regPlace w reg)) (immText false imm)
  | .addRmReg w reg rm => twoOperands "add" (placeText (rmPlace w rm)) (placeText (regPlace w reg))
  | .addRegRm w reg rm => twoOperands "add" (placeText (regPlace w reg)) (placeText (rmPlace w rm))
  | .addRmImm sx w rm imm => twoOperands "add" (sizeKeyword w rm ++ placeText (rmPlace w rm)) (immText sx imm)
  | .subRmReg w reg rm => twoOperands "sub" (placeText (rmPlace w rm)) (placeText (regPlace w reg))
  | .subRegRm w reg rm => twoOperands "sub" (placeText (regPlace w reg)) (placeText (rmPlace w rm))
  | .subRmImm sx w rm imm => twoOperands "sub" (sizeKeyword w rm ++ placeText (rmPlace w rm)) (immText sx imm)
  | .cmpRmReg w reg rm => twoOperands "cmp" (placeText (rmPlace w rm)) (placeText (regPlace w reg))
  | .cmpRegRm w reg rm => twoOperands "cmp" (placeText (regPlace w reg)) (placeText (rmPlace w rm))
  | .cmpRmImm sx w rm imm => twoOperands "cmp" (sizeKeyword w rm ++ placeText (rmPlace w rm)) (immText sx imm)
  | .jne d => "jne " ++ toString d.toInt

end Sys2Proof.Machine
end

