-- ==== Sys2Proof/Tests/Slice0.lean ====
section
/-! SUPPORT. Tests and witnesses. Expected values come from 95_test_vectors.md, which was evaluated by hand from the rules of
the spec. -/

namespace Sys2Proof.Tests

open Machine

/-! ## WellFormed: an ill-formed term for each check -/

/-- `[bp]` without a displacement has no encoding (30_encoding.md R94). -/
theorem test_wf_refuses_bp_without_displacement : (Instr.movRmReg .word 0 (.noDisp .bp)).wf = false := by decide

theorem test_wf_refuses_bp_in_add : (Instr.addRegRm .word 0 (.noDisp .bp)).wf = false := by decide

theorem test_wf_refuses_bp_in_group : (Instr.cmpRmImm false .word (.noDisp .bp) 0).wf = false := by decide

/-- Format RI with w = 0: one byte (30_encoding.md R96). -/
theorem test_wf_refuses_wide_RI_byte : (Instr.movRegImm .byte 0 0x0100).wf = false := by decide

/-- Format MI with s = w = 0: one byte, zero-extended (30_encoding.md R97). -/
theorem test_wf_refuses_wide_MI_byte : (Instr.addRmImm false .byte (.register 0) 0xFFFF).wf = false := by decide

/-- Format MI with s = 1: one byte, sign-extended (30_encoding.md R97). -/
theorem test_wf_refuses_MI_sign_low : (Instr.subRmImm true .word (.register 0) 0x0080).wf = false := by decide

theorem test_wf_refuses_MI_sign_high : (Instr.cmpRmImm true .byte (.register 0) 0xFF7F).wf = false := by decide

theorem test_wf_accepts_MI_sign : (Instr.cmpRmImm true .byte (.register 0) 0xFF80).wf = true := by decide

/-! ## Decode: bytes written out from the encodings (95_test_vectors.md sections 2.1, 2.2) -/

/-- The record of the first instruction of a buffer. -/
def recordIn (bs : List Byte) : Option InstrRecord :=
  match decodeAt bs 0 with
  | .ok (i, _) => some (recordOf i)
  | .error _ => none

/-- The failure of decoding a buffer. -/
def failureIn (bs : List Byte) : Option DecodeError :=
  match decodeAt bs 0 with
  | .ok _ => none
  | .error e => some e

/-- 1000100 1, 11 011 001: `mov cx, bx`. -/
theorem test_decode_movRmReg : decode [0b10001001, 0b11011001] = .ok (.movRmReg .word 3 (.register 1), []) := by rfl

theorem test_decode_mov_store_record : recordIn [0x89, 0x4C, 0x04]
    = some ⟨.alu .mov, .place (.memory (.regs .si) 0x0004), some (.place (.register CX)), 3⟩ := by decide

/-- 1000101 1, 01 000 001, disp8: `mov ax, [bx + di - 1]`. -/
theorem test_decode_movRegRm :
    decode [0b10001011, 0b01000001, 0xFF] = .ok (.movRegRm .word 0 (.disp8 .bxDi 0xFF), []) := by rfl

theorem test_decode_mov_load_record : recordIn [0x8B, 0x86, 0x34, 0x12]
    = some ⟨.alu .mov, .place (.register AX), some (.place (.memory (.regs .bp) 0x1234)), 4⟩ := by decide

theorem test_decode_mov_direct_record : recordIn [0x8B, 0x1E, 0xE8, 0x03]
    = some ⟨.alu .mov, .place (.register BX), some (.place (.memory .direct 0x03E8)), 4⟩ := by decide

/-- 1011 0 101, imm8: `mov ch, 244`. -/
theorem test_decode_movRegImm : decode [0b10110101, 0xF4] = .ok (.movRegImm .byte 5 0x00F4, []) := by rfl

theorem test_decode_mov_imm_record : recordIn [0xBF, 0xFF, 0xFF]
    = some ⟨.alu .mov, .place (.register DI), some (.immediate 0xFFFF), 3⟩ := by decide

/-- 0000000 0, 11 000 100: `add ah, al`. -/
theorem test_decode_addRmReg : decode [0b00000000, 0b11000100] = .ok (.addRmReg .byte 0 (.register 4), []) := by rfl

/-- 0000001 1, 00 011 000: `add bx, [bx + si]`. -/
theorem test_decode_addRegRm : decode [0b00000011, 0b00011000] = .ok (.addRegRm .word 3 (.noDisp .bxSi), []) := by rfl

/-- 100000 1 1, 10 000 110, disp16, imm8: `add word [bp + 256], -2`. -/
theorem test_decode_addRmImm : decode [0b10000011, 0b10000110, 0x00, 0x01, 0xFE]
    = .ok (.addRmImm true .word (.disp16 .bp 0x0100) 0xFFFE, []) := by rfl

theorem test_decode_group_signed_byte_record : recordIn [0x82, 0xC1, 0xFF]
    = some ⟨.alu .add, .place (.register CL), some (.immediate 0xFFFF), 3⟩ := by decide

/-- 0010100 1, 11 001 011: `sub bx, cx`. -/
theorem test_decode_subRmReg : decode [0b00101001, 0b11001011] = .ok (.subRmReg .word 1 (.register 3), []) := by rfl

/-- 0010101 1, 01 011 110, disp8: `sub bx, [bp + 2]`. -/
theorem test_decode_subRegRm :
    decode [0b00101011, 0b01011110, 0x02] = .ok (.subRegRm .word 3 (.disp8 .bp 0x02), []) := by rfl

/-- 100000 1 1, 01 101 100, disp8, imm8: `sub word [si + 2], 5`. -/
theorem test_decode_subRmImm : decode [0b10000011, 0b01101100, 0x02, 0x05]
    = .ok (.subRmImm true .word (.disp8 .si 0x02) 0x0005, []) := by rfl

/-- 0011100 1, 00 000 111: `cmp [bx], ax`. -/
theorem test_decode_cmpRmReg : decode [0b00111001, 0b00000111] = .ok (.cmpRmReg .word 0 (.noDisp .bx), []) := by rfl

/-- 0011101 1, 00 000 110, address: `cmp ax, [16]`. -/
theorem test_decode_cmpRegRm :
    decode [0b00111011, 0b00000110, 0x10, 0x00] = .ok (.cmpRegRm .word 0 (.direct 0x0010), []) := by rfl

/-- 100000 0 1, 00 111 110, address, imm16: `cmp word [1000], 4660`. -/
theorem test_decode_cmpRmImm : decode [0b10000001, 0b00111110, 0xE8, 0x03, 0x34, 0x12]
    = .ok (.cmpRmImm false .word (.direct 0x03E8) 0x1234, []) := by rfl

/-- 01110101, disp8: `jne -128`. -/
theorem test_decode_jne : recordIn [0b01110101, 0x80] = some ⟨.jne, .immediate 0xFF80, none, 2⟩ := by decide

theorem test_decode_ignores_what_follows :
    decode [0x89, 0xD9, 0xFF] = .ok (.movRmReg .word 3 (.register 1), [0xFF]) := by rfl

/-- 40_decoder.md R138: the middle of an instruction. -/
theorem test_decode_from_the_middle :
    decodeAt [0xB8, 0x05, 0x00, 0x83, 0xC0, 0x03, 0x75, 0xFC] 4 = .error .unrecognizedOpcode := by rfl

theorem test_truncated :
    failureIn [0xB8, 0x05] = some .truncatedInput ∧ failureIn [0x89] = some .truncatedInput ∧
    failureIn [0x8B, 0x41] = some .truncatedInput ∧ failureIn [0x81, 0x84, 0xF6, 0xFF, 0x00] = some .truncatedInput ∧
    failureIn [0x83] = some .truncatedInput ∧ failureIn [] = some .truncatedInput := by decide

/-- `80 48`: the sub-opcode is judged before the missing displacement (40_decoder.md R136). -/
theorem test_unrecognized :
    failureIn [0xFF] = some .unrecognizedOpcode ∧ failureIn [0x05, 0x03, 0x00] = some .unrecognizedOpcode ∧
    failureIn [0x74, 0x02] = some .unrecognizedOpcode ∧ failureIn [0x8C, 0xD8] = some .unrecognizedOpcode ∧
    failureIn [0x83, 0xC8, 0x01] = some .unrecognizedOpcode ∧ failureIn [0x80, 0x48] = some .unrecognizedOpcode := by
  decide

/-- 40_decoder.md R121, the worked example of the cursor. -/
theorem test_cursor_next : (Cursor.mk [0x89, 0xD9] 0).next = (some 0x89, ⟨[0x89, 0xD9], 1⟩) ∧
    (Cursor.mk [0x89, 0xD9] 2).next = (none, ⟨[0x89, 0xD9], 2⟩) := by decide

/-- 30_encoding.md R92: the eight bases by r/m number, `mov ax, [base - 2]` with mod 01. -/
theorem test_decode_base_table : (List.range 8).map (fun n => recordIn [0x8B, BitVec.ofNat 8 (0x40 + n), 0xFE])
    = [BaseRegs.bxSi, .bxDi, .bpSi, .bpDi, .si, .di, .bp, .bx].map fun b =>
      some ⟨.alu .mov, .place (.register AX), some (.place (.memory (.regs b) 0xFFFE)), 3⟩ := by decide

/-- mod 00 and mod 10 with r/m 010, 011 and 101 (30_encoding.md R91, R92). -/
theorem test_decode_other_bases :
    decode [0x8B, 0b00000010] = .ok (.movRegRm .word 0 (.noDisp .bpSi), []) ∧
    decode [0x8B, 0b10000011, 0x34, 0x12] = .ok (.movRegRm .word 0 (.disp16 .bpDi 0x1234), []) ∧
    decode [0x8B, 0b00000101] = .ok (.movRegRm .word 0 (.noDisp .di), []) := ⟨rfl, rfl, rfl⟩

/-- 30_encoding.md R115: the table's number has the first byte in the high half: 89 D9. -/
theorem test_table_word : decodeTableWord 16 0x89D9 = some (.movRmReg .word 3 (.register 1)) := by decide

/-- The operand bytes past the table's 16 bits are zeros: B8 00 00. -/
theorem test_table_word_zero_padding : decodeTableWord 16 0xB800 = some (.movRegImm .word 0 0) := by decide

/-! ## Single steps (95_test_vectors.md sections 2.3 to 2.5) -/

/-- The start of a program, with registers, cells and FLAGS set. -/
def withRegs (regs : List (RegIndex × Word)) (s : State) : State := regs.foldl (fun s p => s.setReg p.1 p.2) s

def withCells (cells : List (Word × Word)) (s : State) : State := cells.foldl (fun s p => s.memWrite p.1 p.2) s

def start (code : List Byte) (regs : List (RegIndex × Word)) (cells : List (Word × Word)) (f : Flag) : State :=
  withRegs regs (withCells cells ((startOf code).setFlags f))

/-- A register, FLAGS and pc after one step. -/
def regAfter (i : RegIndex) (s : State) : Option (Word × Flag × Word) :=
  match step s with
  | .next t => some (t.reg i, t.flags, t.pc)
  | .fault _ => none
  | .refused _ => none

/-- A cell of DM, FLAGS and pc after one step. -/
def cellAfter (a : Word) (s : State) : Option (Word × Flag × Word) :=
  match step s with
  | .next t => some (t.memRead a, t.flags, t.pc)
  | .fault _ => none
  | .refused _ => none

/-- RUN and pc after one step. -/
def runAfter (s : State) : Option (RunStatus × Word) :=
  match step s with
  | .next t => some (t.run, t.pc)
  | .fault _ => none
  | .refused _ => none

theorem test_mov_cx_bx : regAfter CX (start [0x89, 0xD9] [(BX, 0x1234), (CX, 0xFFFF)] [] .zero)
    = some (0x1234, .zero, 2) := by decide

/-- The address wraps: 0xFFFE + 4 = 2. -/
theorem test_mov_store_wraps : cellAfter 0x0002 (start [0x89, 0x4C, 0x04] [(SI, 0xFFFE), (CX, 0x00AA)] [] .none)
    = some (0x00AA, .none, 3) := by decide

/-- `mov bx, [bx]`: the address is taken from the old bx. -/
theorem test_mov_bx_at_bx : regAfter BX (start [0x8B, 0x1F] [(BX, 0x0010)] [(0x0010, 0xBEEF)] .none)
    = some (0xBEEF, .none, 2) := by decide

/-- `mov al, [bx]`: the w bit does not narrow the access. -/
theorem test_mov_al_whole_cell : regAfter AL (start [0x8A, 0x07] [(BX, 0x0030)] [(0x0030, 0xABCD)] .none)
    = some (0xABCD, .none, 2) := by decide

/-- MOV of zero does not set Zero. -/
theorem test_mov_ax_0 : regAfter AX (start [0xB8, 0x00, 0x00] [(AX, 0x0007)] [] .sign) = some (0, .sign, 3) := by
  decide

theorem test_mov_ch_244 : regAfter CX (start [0xB5, 0xF4] [] [] .none) = some (0, .none, 2) ∧
    regAfter CH (start [0xB5, 0xF4] [] [] .none) = some (0x00F4, .none, 2) := by decide

/-- `add [bx], cx`. -/
theorem test_add_store : cellAfter 0x0010 (start [0x01, 0x0F] [(BX, 0x0010), (CX, 0x0001)] [(0x0010, 0x7FFF)] .none)
    = some (0x8000, .sign, 2) := by decide

/-- `add ah, al`: 16-bit cells, no carry out of bit 7. -/
theorem test_add_ah_al : regAfter AH (start [0x00, 0xC4] [(AL, 0x0080), (AH, 0x0080)] [] .none)
    = some (0x0100, .none, 2) := by decide

theorem test_add_bx_at_bx_si :
    regAfter BX (start [0x03, 0x18] [(BX, 0x0010), (SI, 0x0002)] [(0x0012, 0x7FF0)] .none)
    = some (0x8000, .sign, 2) := by decide

theorem test_add_bx_at_bx : regAfter BX (start [0x03, 0x1F] [(BX, 0x0010)] [(0x0010, 0x0005)] .none)
    = some (0x0015, .none, 2) := by decide

/-- `add cl, 255` and `add cl, -1` (s = 0 and s = 1). -/
theorem test_add_cl_imm : regAfter CL (start [0x80, 0xC1, 0xFF] [(CL, 1)] [] .none) = some (0x0100, .none, 3) ∧
    regAfter CL (start [0x82, 0xC1, 0xFF] [(CL, 1)] [] .none) = some (0x0000, .zero, 3) := by decide

theorem test_add_word_si_imm :
    cellAfter 0x0000 (start [0x81, 0x84, 0xF6, 0xFF, 0x00, 0x80] [(SI, 0x000A)] [(0x0000, 0x8000)] .none)
    = some (0x0000, .zero, 6) := by decide

theorem test_sub_bx_cx : regAfter BX (start [0x29, 0xCB] [(CX, 1)] [] .none) = some (0xFFFF, .sign, 2) := by decide

theorem test_sub_ax_ax : regAfter AX (start [0x29, 0xC0] [(AX, 0x1234)] [] .none) = some (0, .zero, 2) := by decide

theorem test_sub_bx_at_bp_2 :
    regAfter BX (start [0x2B, 0x5E, 0x02] [(BX, 0x8000), (BP, 0xFFFE)] [(0x0000, 0x0001)] .none)
    = some (0x7FFF, .none, 3) := by decide

theorem test_sub_word_si_imm :
    cellAfter 0x0102 (start [0x83, 0x6C, 0x02, 0x05] [(SI, 0x0100)] [(0x0102, 0x0003)] .none)
    = some (0xFFFE, .sign, 4) := by decide

theorem test_cmp_bx_cx : regAfter BX (start [0x39, 0xCB] [(BX, 3), (CX, 5)] [] .none) = some (3, .sign, 2) := by decide

theorem test_cmp_at_bx_ax : cellAfter 0x0040 (start [0x39, 0x07] [(BX, 0x0040), (AX, 1)] [] .none)
    = some (0, .sign, 2) := by decide

theorem test_cmp_ax_direct :
    regAfter AX (start [0x3B, 0x06, 0x10, 0x00] [(AX, 0x8000)] [(0x0010, 0x0001)] .none)
    = some (0x8000, .none, 4) := by decide

theorem test_cmp_word_imm :
    cellAfter 0x03E8 (start [0x81, 0x3E, 0xE8, 0x03, 0x34, 0x12] [] [(0x03E8, 0x1234)] .sign)
    = some (0x1234, .zero, 6) := by decide

theorem test_jne_not_taken : runAfter (start [0x75, 0xFB] [] [] .zero) = some (.running, 0x0002) := by decide

/-- Taken on None and on Sign, and the pc wraps: 2 - 5. -/
theorem test_jne_taken_wraps : runAfter (start [0x75, 0xFB] [] [] .none) = some (.running, 0xFFFD) ∧
    runAfter (start [0x75, 0xFB] [] [] .sign) = some (.running, 0xFFFD) := by decide

/-! ## Ends of a run -/

/-- P7: the empty program. -/
theorem test_empty_program_halts : runAfter (startOf []) = some (.halted, 0) := by decide

/-- E7: `FF`. -/
theorem test_unrecognized_faults : runAfter (startOf [0xFF]) = some (.faulted .unrecognizedOpcode, 0) := by decide

/-- P4, step 3: nothing of the cut instruction is committed. -/
theorem test_truncated_faults : runAfter ((startOf [0xB8, 0x01, 0x00, 0x01, 0xC0, 0x81, 0xC3, 0xE8]).setPc 5)
    = some (.faulted .truncatedInput, 5) := by decide

/-- P6: a byte register is no part of a word register. -/
theorem test_byte_registers_are_separate : (runFuel 3 (startOf [0xB0, 0x05, 0x89, 0xC3])).snapshot
    = ⟨[(AL, 5)], 4, .none⟩ := by decide

/-- P5: the one step record of a branch below position 0. -/
theorem test_branch_record : runRecords 2 (startOf [0x75, 0xF0])
    = [⟨⟨.jne, .immediate 0xFFF0, none, 2⟩, none, none, .none, .none, 0, 0xFFF2⟩] := by decide

/-- The reset action leaves an ended run and keeps CODE (70_reset_and_hazards.md R250, R252). -/
theorem test_reset_leaves_a_fault : (runFuel 1 (startOf [0xFF])).resetAction = startOf [0xFF] := by decide

/-! ## Display (95_test_vectors.md section 2.1) -/

theorem test_text_load : instrText (.movRegRm .word 0 (.disp8 .bxDi 0xFF)) = "mov ax, [bx + di - 1]" := by decide

theorem test_text_group : instrText (.addRmImm true .word (.disp16 .bp 0x0100) 0xFFFE)
    = "add word [bp + 256], -2" := by decide

theorem test_text_group_unsigned : instrText (.addRmImm false .byte (.register 1) 0x00FF) = "add cl, 255" := by decide

theorem test_text_jne : instrText (.jne 0xFB) = "jne -5" := by decide

/-! ## Witnesses: for each statement with hypotheses, an input that meets all of them -/

theorem witness_RegisterCellsAreIndependent : AL ≠ AX := by decide

/-- Every base expression stands in the list. -/
theorem witness_EffectiveAddressSums (s : State) : ∀ b : BaseRegs, ∃ sum : Nat,
    (b, sum) ∈ [(BaseRegs.bxSi, (s.reg BX).toNat + (s.reg SI).toNat), (.bxDi, (s.reg BX).toNat + (s.reg DI).toNat),
      (.bpSi, (s.reg BP).toNat + (s.reg SI).toNat), (.bpDi, (s.reg BP).toNat + (s.reg DI).toNat),
      (.si, (s.reg SI).toNat), (.di, (s.reg DI).toNat), (.bp, (s.reg BP).toNat), (.bx, (s.reg BX).toNat)] := by
  intro b
  cases b <;>
    exact ⟨_, by simp only [List.mem_cons, Prod.mk.injEq, true_and, reduceCtorEq, false_and, false_or]; exact .inl rfl⟩

/-- The neighbouring address, at the top of DM. -/
theorem witness_MemWriteThenRead : (0xFFFF : Word) ≠ 0x0000 := by decide

theorem witness_CanonicalMemoryIsUnique :
    Memory.wf [(3, 7), (65535, 1)] ∧ (∀ a : Word, Memory.read [(3, 7), (65535, 1)] a.toNat
      = Memory.read [(3, 7), (65535, 1)] a.toNat) := ⟨by decide, fun _ => rfl⟩

/-- Each of the two clauses of the resolver, and each of the two on `exec`. -/
theorem witness_JneResolvesBranch :
    (Flag.none ≠ .zero ∧ Flag.sign ≠ .zero) ∧ ((startOf []).setFlags .zero).flags = .zero ∧ (startOf []).flags ≠ .zero := by
  decide

/-- A storing form. -/
theorem witness_InstructionFrame :
    ∃ t, exec (.addRmReg .word 1 (.noDisp .bx)) (start [] [(BX, 0x0010), (CX, 1)] [(0x0010, 5)] .none) = .next t :=
  ⟨_, rfl⟩

theorem witness_FlagsWritersAndReaders_mov :
    (∃ t, exec (.movRegImm .word 0 5) (startOf []) = .next t) ∧
    (recordOf (.movRegImm .word 0 5)).operand0 = .place (.register AX) ∧
    (recordOf (.movRegImm .word 0 5)).operand1 = some (.immediate 5) ∧
    (recordOf (.movRegImm .word 0 5)).op = .alu .mov := ⟨⟨_, rfl⟩, rfl, rfl, rfl⟩

theorem witness_FlagsWritersAndReaders_add :
    (∃ t, exec (.addRmImm true .word (.register 0) 3) (startOf []) = .next t) ∧
    (recordOf (.addRmImm true .word (.register 0) 3)).operand0 = .place (.register AX) ∧
    (recordOf (.addRmImm true .word (.register 0) 3)).operand1 = some (.immediate 3) ∧
    (recordOf (.addRmImm true .word (.register 0) 3)).op = .alu .add := ⟨⟨_, rfl⟩, rfl, rfl, rfl⟩

/-- SUB and CMP, each side of the `∨`, both with the record that the clause asks for. -/
theorem witness_FlagsWritersAndReaders_sub_cmp :
    (∃ t, exec (.subRmReg .word 1 (.register 3)) (startOf []) = .next t) ∧
    (∃ t, exec (.cmpRmReg .word 1 (.register 3)) (startOf []) = .next t) ∧
    (recordOf (.subRmReg .word 1 (.register 3))).operand0 = .place (.register BX) ∧
    (recordOf (.subRmReg .word 1 (.register 3))).operand1 = some (.place (.register CX)) ∧
    (recordOf (.subRmReg .word 1 (.register 3))).op = .alu .sub ∧
    (recordOf (.cmpRmReg .word 1 (.register 3))).operand0 = .place (.register BX) ∧
    (recordOf (.cmpRmReg .word 1 (.register 3))).operand1 = some (.place (.register CX)) ∧
    (recordOf (.cmpRmReg .word 1 (.register 3))).op = .alu .cmp :=
  ⟨⟨_, rfl⟩, ⟨_, rfl⟩, rfl, rfl, rfl, rfl, rfl, rfl⟩

/-- The clauses on JNE and on the old FLAGS. -/
theorem witness_FlagsWritersAndReaders_jne :
    (∃ t, exec (.jne 0xFB) (startOf []) = .next t) ∧ (Flag.none ≠ .zero ∧ Flag.sign ≠ .zero) ∧
    (∃ t, exec (.jne 0xFB) ((startOf []).setFlags .none) = .next t) ∧
    (∀ d, Instr.movRegImm .word 0 5 ≠ .jne d) ∧ (∃ t, exec (.movRegImm .word 0 5) (startOf []) = .next t) :=
  ⟨⟨_, rfl⟩, by decide, ⟨_, rfl⟩, nofun, ⟨_, rfl⟩⟩

/-- A byte form, a word form and JNE. -/
theorem witness_WidthSeparatesRegisterCells :
    ((∃ t, exec (.movRegImm .byte 0 5) (startOf []) = .next t) ∧ widthOf (.movRegImm .byte 0 5) ≠ some .word) ∧
    ((∃ t, exec (.movRegImm .word 0 5) (startOf []) = .next t) ∧ widthOf (.movRegImm .word 0 5) ≠ some .byte) ∧
    ((∃ t, exec (.jne 0) (startOf []) = .next t) ∧ widthOf (.jne 0) ≠ some .word ∧ widthOf (.jne 0) ≠ some .byte) :=
  ⟨⟨⟨_, rfl⟩, by decide⟩, ⟨⟨_, rfl⟩, by decide⟩, ⟨_, rfl⟩, by decide, by decide⟩

/-- The longest instruction, six bytes. -/
theorem witness_DecodeOfEncode : (Instr.addRmImm false .word (.disp16 .si 0xFFF6) 0x8000).wf = true := by decide

theorem witness_EncodeOfDecode :
    decode [0x81, 0x84, 0xF6, 0xFF, 0x00, 0x80, 0xFF]
    = .ok (.addRmImm false .word (.disp16 .si 0xFFF6) 0x8000, [0xFF]) := by rfl

/-- The smallest and the greatest size, the greatest ending at LEN. -/
theorem witness_SizeIsConsumedBytes :
    decodeAt [0x00, 0x75, 0xFB] 1 = .ok (.jne 0xFB, 2) ∧
    decodeAt [0x81, 0x84, 0xF6, 0xFF, 0x00, 0x80] 0 = .ok (.addRmImm false .word (.disp16 .si 0xFFF6) 0x8000, 6) :=
  ⟨rfl, rfl⟩

/-- All four operations. -/
theorem witness_DirectionSymmetry : ∀ op : AluOp, ∃ opcode : BitVec 6,
    (op, opcode) ∈ [(AluOp.mov, 0b100010#6), (.add, 0b000000#6), (.sub, 0b001010#6), (.cmp, 0b001110#6)]
  | .mov => ⟨0b100010#6, by decide⟩
  | .add => ⟨0b000000#6, by decide⟩
  | .sub => ⟨0b001010#6, by decide⟩
  | .cmp => ⟨0b001110#6, by decide⟩

/-- Each of the five shapes of operand bytes: `D9`, `1E E8 03`, `18`, `41 FF`, `86 34 12` after their first byte. -/
theorem witness_RmBytes :
    RmBytes .word 3 [0xD9] (.register CX) ∧ RmBytes .word 3 [0x1E, 0xE8, 0x03] (.memory .direct 0x03E8) ∧
    RmBytes .word 3 [0x18] (.memory (.regs .bxSi) 0) ∧ RmBytes .word 0 [0x41, 0xFF] (.memory (.regs .bxDi) 0xFFFF) ∧
    RmBytes .word 0 [0x86, 0x34, 0x12] (.memory (.regs .bp) 0x1234) :=
  ⟨⟨1, .inl ⟨rfl, rfl⟩⟩, ⟨6, .inr (.inl ⟨rfl, 0xE8, 0x03, 0x03E8, by unfold WordOf; decide, rfl, rfl⟩)⟩,
    ⟨0, .inr (.inr ⟨.bxSi, by decide, .inl ⟨by decide, rfl, rfl⟩⟩)⟩,
    ⟨1, .inr (.inr ⟨.bxDi, by decide, .inr (.inl ⟨0xFF, 0xFFFF, by decide, rfl, rfl⟩)⟩)⟩,
    ⟨6, .inr (.inr ⟨.bp, by decide, .inr (.inr ⟨0x34, 0x12, 0x1234, by unfold WordOf; decide, rfl, rfl⟩)⟩)⟩⟩

theorem witness_FormatRmRecords :
    (AluOp.mov, 0b100010#6) ∈ [(AluOp.mov, 0b100010#6), (.add, 0b000000#6), (.sub, 0b001010#6), (.cmp, 0b001110#6)] ∧
    RmBytes .word 0 [0x41, 0xFF] (.memory (.regs .bxDi) 0xFFFF) := ⟨by decide, witness_RmBytes.2.2.2.1⟩

/-- A direct operand with each shape of immediate, at a boundary value. -/
theorem witness_FormatMiRecords :
    (AluOp.cmp, 0b111#3) ∈ [(AluOp.add, 0b000#3), (.sub, 0b101#3), (.cmp, 0b111#3)] ∧
    RmBytes .word 7 [0x3E, 0xE8, 0x03] (.memory .direct 0x03E8) ∧
    ImmBytesMI true .word [0x80] 0xFF80 ∧ ImmBytesMI false .byte [0xFF] 0x00FF ∧
    ImmBytesMI false .word [0x34, 0x12] 0x1234 :=
  ⟨by decide, ⟨6, .inr (.inl ⟨rfl, 0xE8, 0x03, 0x03E8, by unfold WordOf; decide, rfl, rfl⟩)⟩, ⟨0x80, rfl, by decide⟩, ⟨0xFF, rfl, rfl⟩,
    ⟨_, _, rfl, rfl⟩⟩

theorem witness_FormatRiAndJRecords : ImmBytesRI .byte [0xF4] 0x00F4 ∧ ImmBytesRI .word [0xFF, 0xFF] 0xFFFF :=
  ⟨⟨_, rfl, rfl⟩, ⟨_, _, rfl, rfl⟩⟩

theorem witness_OpcodeTableSelectsTheRow :
    decode [0x80, 0x38, 0x01] = .ok (.cmpRmImm false .byte (.noDisp .bxSi) 1, []) ∧
    (Instr.cmpRmImm false .byte (.noDisp .bxSi) 1).row ∈ opcodeTable := ⟨rfl, by decide⟩

/-- A cursor at the last byte, and one at LEN. -/
theorem witness_CursorOperations :
    (Cursor.mk [0x89, 0xD9] 1).wf ∧ (Cursor.mk [0x89, 0xD9] 1).position < (Cursor.mk [0x89, 0xD9] 1).code.length ∧
    (Cursor.mk [0x89, 0xD9] 2).wf ∧ (Cursor.mk [0x89, 0xD9] 2).position = (Cursor.mk [0x89, 0xD9] 2).code.length := by
  decide

theorem witness_StepRunsDecodedInstruction :
    (startOf [0x75, 0xFB, 0x00]).ready ∧ (Instr.jne 0xFB).wf = true ∧
    (startOf [0x75, 0xFB, 0x00]).code.drop (startOf [0x75, 0xFB, 0x00]).pc.toNat = encode (.jne 0xFB) ++ [0x00] := by
  decide

/-- pc = LEN, and the greatest pc. -/
theorem witness_LoopTestHalts :
    ((startOf [0x75]).setPc 1).ready ∧ ((startOf [0x75]).setPc 1).len ≤ ((startOf [0x75]).setPc 1).pc.toNat ∧
    ((startOf [0x75]).setPc 0xFFFF).ready ∧
    ((startOf [0x75]).setPc 0xFFFF).len ≤ ((startOf [0x75]).setPc 0xFFFF).pc.toNat := by decide

theorem witness_DecodeFaultIsPrecise :
    ((startOf [0xFF]).ready ∧ (startOf [0xFF]).pc.toNat < (startOf [0xFF]).len ∧
      decode ((startOf [0xFF]).code.drop (startOf [0xFF]).pc.toNat) = .error .unrecognizedOpcode) ∧
    ((startOf [0x89]).ready ∧ (startOf [0x89]).pc.toNat < (startOf [0x89]).len ∧
      decode ((startOf [0x89]).code.drop (startOf [0x89]).pc.toNat) = .error .truncatedInput) :=
  ⟨⟨by decide, by decide, rfl⟩, by decide, by decide, rfl⟩

theorem witness_EndedRunHasNoNextStep :
    ((startOf []).setRun .halted).run = .halted ∧
    ((startOf []).setRun (.faulted .truncatedInput)).run = .faulted .truncatedInput := by decide

theorem len_startOf_replicate (n : Nat) : (startOf (List.replicate n 0)).len = n := List.length_replicate

/-- The least LEN outside the premise. -/
theorem witness_LongCodeIsRefused :
    (startOf (List.replicate 65536 0)).run = .running ∧ 65535 < (startOf (List.replicate 65536 0)).len :=
  ⟨rfl, (len_startOf_replicate 65536).symm ▸ Nat.lt_succ_self 65535⟩

/-- Each of the three ways a step goes. -/
theorem witness_RunningStepOutcome :
    (startOf []).ready ∧ (startOf [0xFF]).ready ∧ (startOf [0x75, 0xFB]).ready := by decide

/-- Five bytes of a six-byte instruction: LEN - 5 and TruncatedInput. -/
theorem witness_TruncatedInputOnlyNearTheEnd :
    (startOf [0x81, 0x84, 0xF6, 0xFF, 0x00]).ready ∧
    (startOf [0x81, 0x84, 0xF6, 0xFF, 0x00]).pc.toNat < (startOf [0x81, 0x84, 0xF6, 0xFF, 0x00]).len ∧
    ∃ t, step (startOf [0x81, 0x84, 0xF6, 0xFF, 0x00]) = .next t ∧ t.run = .faulted .truncatedInput :=
  ⟨by decide, by decide, _, rfl, rfl⟩

/-- The last clause: two states with one CODE and one pc that differ in FLAGS. -/
theorem witness_TruncatedInputOnlyNearTheEnd_twoStates :
    (startOf [0x89]).run = .running ∧ (start [0x89] [] [] .sign).run = .running ∧
    (start [0x89] [] [] .sign).code = (startOf [0x89]).code ∧ (start [0x89] [] [] .sign).pc = (startOf [0x89]).pc ∧
    (∃ t, step (startOf [0x89]) = .next t) ∧ ∃ t, step (start [0x89] [] [] .sign) = .next t :=
  ⟨rfl, rfl, rfl, rfl, ⟨_, rfl⟩, _, rfl⟩

/-- The instruction ends at LEN. -/
theorem witness_SequentialAdvanceNeverWraps :
    (startOf [0x89, 0xD9]).ready ∧ (∀ d, Instr.movRmReg .word 3 (.register 1) ≠ .jne d) ∧
    decode ((startOf [0x89, 0xD9]).code.drop (startOf [0x89, 0xD9]).pc.toNat)
      = .ok (.movRmReg .word 3 (.register 1), []) ∧
    ∃ t, step (startOf [0x89, 0xD9]) = .next t :=
  ⟨by decide, nofun, rfl, _, rfl⟩

theorem witness_SelfBranchRunsForever :
    (startOf [0x75, 0xFE]).ready ∧ (startOf [0x75, 0xFE]).flags ≠ .zero ∧
    (startOf [0x75, 0xFE]).code.drop (startOf [0x75, 0xFE]).pc.toNat = 0x75 :: 0xFE :: [] := by decide

/-- A step that stores to address 0, which is no position of CODE. -/
theorem witness_StepNeverWritesCode : ∃ t, step (startOf [0x89, 0x06, 0x00, 0x00]) = .next t := ⟨_, rfl⟩

theorem witness_StepKeepsTheInvariant :
    (start [0x89, 0x06, 0x00, 0x00] [(AX, 7)] [(3, 1)] .none).Inv ∧
    ∃ t, step (start [0x89, 0x06, 0x00, 0x00] [(AX, 7)] [(3, 1)] .none) = .next t := ⟨by decide, _, rfl⟩

/-- The greatest LEN of the premise. -/
theorem witness_StartMeetsTheInvariant : (List.replicate 65535 (0 : Byte)).length ≤ 65535 :=
  List.length_replicate.le

theorem witness_EndedRunIsNeverResumed : (runFuel 1 (startOf [])).ended ∧ (runFuel 1 (startOf [0xFF])).ended := by decide

/-- One witness with a destination, which is CMP's too, and one for JNE. -/
theorem witness_StepRecordOfExecutedInstruction_cmp :
    (startOf [0x39, 0xCB]).ready ∧
    decode ((startOf [0x39, 0xCB]).code.drop (startOf [0x39, 0xCB]).pc.toNat) = .ok (.cmpRmReg .word 1 (.register 3), []) ∧
    (∃ t, step (startOf [0x39, 0xCB]) = .next t) ∧
    (recordOf (.cmpRmReg .word 1 (.register 3))).operand0 = .place (.register BX) ∧
    (recordOf (.cmpRmReg .word 1 (.register 3))).op = .alu .cmp := ⟨by decide, rfl, ⟨_, rfl⟩, rfl, rfl⟩

theorem witness_StepRecordOfExecutedInstruction_jne :
    (startOf [0x75, 0xFB]).ready ∧
    decode ((startOf [0x75, 0xFB]).code.drop (startOf [0x75, 0xFB]).pc.toNat) = .ok (.jne 0xFB, []) ∧
    (∃ t, step (startOf [0x75, 0xFB]) = .next t) ∧ (recordOf (.jne 0xFB)).op = .jne := ⟨by decide, rfl, ⟨_, rfl⟩, rfl⟩

/-- A step that only halts, one that faults, and a state without a step. -/
theorem witness_NoRecordWithoutAnInstruction :
    (∀ t, step (startOf []) = .next t → t.run ≠ .running) ∧
    (∀ t, step (startOf [0xFF]) = .next t → t.run ≠ .running) ∧
    (∀ t, step ((startOf []).setRun .halted) = .next t → t.run ≠ .running) :=
  ⟨fun _ h => by cases h; decide, fun _ h => by cases h; decide, fun _ h => by cases h⟩

/-- At reset, and with the pc at the end of the address space. -/
theorem witness_PlacedTableWordRuns :
    decodeTableWord 16 0x75FB = some (.jne 0xFB) ∧ step (State.reset.withFetchWord 16 0x75FB)
      = exec (.jne 0xFB) (State.reset.withFetchWord 16 0x75FB) ∧
    ((startOf []).setPc 0xFFFF).withFetchWord 16 0x75FB = startOf [0x75, 0xFB, 0, 0, 0, 0] :=
  ⟨by decide, rfl, by decide⟩

end Sys2Proof.Tests
end

/-! PROOFS. Who writes FLAGS and who reads it (10_state.md R29). The common semantics of MOV, ADD, SUB and CMP takes the old
FLAGS to its result only where the ALU gives no new value; JNE asks of it only whether it is Zero. -/

namespace Sys2Proof.Machine

/-! ## The common semantics and FLAGS -/

/-- A write to a location neither reads FLAGS nor writes it. -/
@[simp] theorem writeLoc_setFlags (l : Loc) (v : Word) (f : Flag) (s : State) :
    writeLoc l v (s.setFlags f) = (writeLoc l v s).setFlags f := by
  cases l <;> rfl

theorem aluStep_flags (op : AluOp) (dst : Place) (src : Operand) (n : Nat) (s : State) :
    (aluStep op dst src n s).flags =
      (alu op (readLoc (locOf dst s) s) (readOperand src s)).newFlag.getD s.flags := by
  cases op <;> simp [aluStep_mov, aluStep_add, aluStep_sub, aluStep_cmp]

/-- Another old FLAGS reaches the FLAGS of the result at most, and only where the ALU gives no new value. -/
theorem aluStep_setFlags (op : AluOp) (dst : Place) (src : Operand) (n : Nat) (f : Flag) (s : State) :
    aluStep op dst src n (s.setFlags f) =
      (aluStep op dst src n s).setFlags
        ((alu op (readLoc (locOf dst s) s) (readOperand src s)).newFlag.getD f) := by
  cases op <;> simp [aluStep_mov, aluStep_add, aluStep_sub, aluStep_cmp]

/-- With another old FLAGS the same next state but for FLAGS, which is then the same or that other value. -/
theorem aluStep_noninterference (op : AluOp) (dst : Place) (src : Operand) (n : Nat) (f : Flag) (s : State) :
    (aluStep op dst src n (s.setFlags f)).setFlags (aluStep op dst src n s).flags = aluStep op dst src n s ∧
    ((aluStep op dst src n (s.setFlags f)).flags = (aluStep op dst src n s).flags ∨
      (aluStep op dst src n (s.setFlags f)).flags = f) := by
  rw [aluStep_setFlags, State.setFlags_setFlags, State.setFlags_self, State.setFlags_flags, aluStep_flags]
  refine ⟨rfl, ?_⟩
  cases (alu op (readLoc (locOf dst s) s) (readOperand src s)).newFlag with
  | none => exact .inr rfl
  | some g => exact .inl rfl

/-! ## JNE and FLAGS -/

theorem exec_jne (d : Byte) (s : State) :
    exec (.jne d) s = .next (s.setPc (nextPc s.flags (advancePc s.pc 2) (sext16 d))) := rfl

theorem nextPc_of_ne_zero {f : Flag} (pcadv d : Word) (h : f ≠ .zero) : nextPc f pcadv d = jumpPc pcadv d := by
  simp [nextPc, branchTaken, h]

theorem exec_jne_setFlags_of_ne_zero {f : Flag} (d : Byte) (s : State) (h : f ≠ .zero) :
    exec (.jne d) (s.setFlags f) =
      .next ((s.setPc (jumpPc (advancePc s.pc 2) (sext16 d))).setFlags f) := by
  simp [exec_jne, nextPc_of_ne_zero _ _ h]

/-! ## The clauses over all instructions -/

/-- The new FLAGS of an instruction whose record is an ALU record. -/
theorem exec_flags_of_record {i : Instr} {s t : State} {op : AluOp} {dst : Place} {src : Operand}
    (h : exec i s = .next t) (h0 : (recordOf i).operand0 = .place dst) (h1 : (recordOf i).operand1 = some src)
    (hop : (recordOf i).op = .alu op) :
    t.flags = (alu op (readLoc (locOf dst s) s) (readOperand src s)).newFlag.getD s.flags := by
  rw [exec_of_record s hop h0 h1] at h
  cases h
  exact aluStep_flags ..

theorem exec_jne_flags {d : Byte} {s t : State} (h : exec (.jne d) s = .next t) : t.flags = s.flags := by
  cases h
  rfl

theorem exec_noninterference_of_ne_jne {i : Instr} (f : Flag) {s t : State} (hi : ∀ d, i ≠ .jne d)
    (h : exec i s = .next t) :
    ∃ u, exec i (s.setFlags f) = .next u ∧ u.setFlags t.flags = t ∧ (u.flags = t.flags ∨ u.flags = f) := by
  rcases exec_cases i s with ⟨op, dst, src, hrec, he⟩ | ⟨d, rfl, -⟩
  · obtain rfl : aluStep op dst src i.size s = t := by simpa [he] using h
    have hu : exec i (s.setFlags f) = .next (aluStep op dst src i.size (s.setFlags f)) :=
      exec_of_record _ (by rw [hrec]; rfl) (by rw [hrec]; rfl) (by rw [hrec]; rfl)
    exact ⟨_, hu, aluStep_noninterference ..⟩
  · exact absurd rfl (hi d)

theorem exec_jne_setFlags_congr {d : Byte} {f g : Flag} {s t : State} (hf : f ≠ .zero) (hg : g ≠ .zero)
    (h : exec (.jne d) (s.setFlags f) = .next t) : exec (.jne d) (s.setFlags g) = .next (t.setFlags g) := by
  rw [exec_jne_setFlags_of_ne_zero d s hf] at h
  cases h
  rw [exec_jne_setFlags_of_ne_zero d s hg, State.setFlags_setFlags]

/-- Settles O15: the ALU's new flag for the writers, the noninterference of the common semantics for the readers, and the
resolver's one question for JNE. -/
theorem flagsWritersAndReaders : Obligations.FlagsWritersAndReaders := by
  refine ⟨fun i s t dst src h h0 h1 => ⟨?mov, ?add, ?subCmp⟩, fun _ _ _ => exec_jne_flags,
    fun _ f _ _ => exec_noninterference_of_ne_jne f, fun _ _ _ _ _ => exec_jne_setFlags_congr⟩
  case mov => exact exec_flags_of_record h h0 h1
  case add => exact exec_flags_of_record h h0 h1
  case subCmp =>
    rintro (hop | hop)
    · exact exec_flags_of_record h h0 h1 hop
    · exact exec_flags_of_record h h0 h1 hop

end Sys2Proof.Machine

/-! PROOFS. What a write to DM changes and what it leaves (20_memory.md R54). -/

namespace Sys2Proof.Machine

theorem State.memRead_memWrite_of_ne {a b : Word} (v : Word) (s : State) (h : b ≠ a) :
    (s.memWrite a v).memRead b = s.memRead b := by
  rw [State.memRead_memWrite, if_neg h.symm]

/-- Settles O5: the read of the written cell, the read of any other, and the frame of the write. -/
theorem memWriteThenRead : Obligations.MemWriteThenRead := fun a _ v s =>
  ⟨State.memRead_memWrite_same a v s, State.memRead_memWrite_of_ne v s, State.memWrite_rf a v s,
    State.memWrite_flags a v s, State.memWrite_pc a v s, State.memWrite_run a v s, State.memWrite_code a v s⟩

end Sys2Proof.Machine

/-! PROOFS. The byte cursor (40_decoder.md R121 to R124): what it answers below LEN and at LEN. -/

namespace Sys2Proof

theorem Cursor.peek_of_lt {c : Cursor} (h : c.position < c.code.length) : c.peek = some c.code[c.position] :=
  List.getElem?_eq_getElem h

theorem Cursor.peek_of_le {c : Cursor} (h : c.code.length ≤ c.position) : c.peek = none :=
  List.getElem?_eq_none h

theorem Cursor.next_of_lt {c : Cursor} (h : c.position < c.code.length) :
    c.next = (some c.code[c.position], ⟨c.code, c.position + 1⟩) := by
  rw [Cursor.next, Cursor.peek_of_lt h]

theorem Cursor.next_of_le {c : Cursor} (h : c.code.length ≤ c.position) : c.next = (none, c) := by
  rw [Cursor.next, Cursor.peek_of_le h]

theorem Cursor.next_wf {c : Cursor} (hc : c.wf) : c.next.2.wf := by
  rcases Nat.lt_or_ge c.position c.code.length with h | h
  · rw [Cursor.next_of_lt h]
    exact h
  · rw [Cursor.next_of_le h]
    exact hc

/-- Settles O26: the cursor's operations below LEN and at LEN, and the invariant that `next` keeps. -/
theorem cursorOperations : Obligations.CursorOperations := fun _ hc =>
  ⟨fun h => ⟨Cursor.peek_of_lt h, Cursor.next_of_lt h⟩,
    fun h => ⟨Cursor.peek_of_le h.ge, Cursor.next_of_le h.ge⟩, Nat.sub_add_cancel hc, Cursor.next_wf hc⟩

end Sys2Proof

/-! PROOFS. What `decode` answers: a well-formed instruction whose encoding is what it consumed, so that the number of bytes
consumed is the encoding's length (40_decoder.md R133). -/

namespace Sys2Proof

/-! ## Each format consumes the encoding of what it answers -/

theorem decodeRM_consumes_encode {op : AluOp} {b0 : Byte} {bs rest : List Byte} {i : Instr}
    (hop : (op, b0.extractLsb' 2 6) ∈ rmOpcodes) (h : decodeRM op b0 bs = .ok (i, rest)) :
    i.wf = true ∧ b0 :: bs = encode i ++ rest := by
  obtain ⟨reg, rm, hw, rfl, rfl⟩ := decodeRM_eq_ok h
  obtain ⟨he, hwf⟩ := encode_formRM hop (bit1Field b0) (wField b0) reg rm
  refine ⟨hwf.trans hw, ?_⟩
  rw [he, encodeFormRM, firstByte_fields, List.cons_append]

theorem decodeRI_consumes_encode {b0 : Byte} {bs rest : List Byte} {i : Instr}
    (hb : b0.extractLsb' 4 4 = 0b1011#4) (h : decodeRI b0 bs = .ok (i, rest)) :
    i.wf = true ∧ b0 :: bs = encode i ++ rest := by
  obtain ⟨v, hf, rfl, rfl⟩ := decodeRI_eq_ok.1 h
  refine ⟨hf, ?_⟩
  rw [encode, firstByteRI_fields b0 hb, List.cons_append]

theorem decodeMI_consumes_encode {b0 : Byte} {bs rest : List Byte} {i : Instr}
    (hb : b0.extractLsb' 2 6 = 0b100000#6) (h : decodeMI b0 bs = .ok (i, rest)) :
    i.wf = true ∧ b0 :: bs = encode i ++ rest := by
  obtain ⟨g, op, rm, v, hg, hw, hv, rfl, hi⟩ := decodeMI_eq_ok h
  obtain ⟨j, hj, he, hwf⟩ := encode_formMI hg (bit1Field b0) (wField b0) rm v
  obtain rfl : j = i := Option.some.inj (hj.symm.trans hi)
  refine ⟨by rw [hwf, hw, hv, Bool.and_self], ?_⟩
  rw [he, encodeFormMI, ← hb, firstByte_fields, List.cons_append, List.append_assoc]

theorem decodeJ_consumes_encode {bs rest : List Byte} {i : Instr} (h : decodeJ bs = .ok (i, rest)) :
    i.wf = true ∧ 0x75#8 :: bs = encode i ++ rest := by
  simp only [decodeJ, bind_eq_ok, need_eq_ok, Prod.exists] at h
  obtain ⟨d, bs1, rfl, h⟩ := h
  cases h
  exact ⟨rfl, rfl⟩

/-- What `decode` answers is well formed, and the bytes it consumed are its encoding. The cases are the tests of the first
byte, in the decoder's order (40_decoder.md R125). -/
theorem decode_consumes_encode {bs rest : List Byte} {i : Instr} (h : decode bs = .ok (i, rest)) :
    i.wf = true ∧ bs = encode i ++ rest := by
  simp only [decode, bind_eq_ok, need_eq_ok, Prod.exists] at h
  obtain ⟨b0, bs, rfl, h⟩ := h
  split at h
  case isTrue hmov => exact decodeRM_consumes_encode (by simp [mem_rmOpcodes, hmov]) h
  split at h
  case isTrue hri => exact decodeRI_consumes_encode hri h
  split at h
  case isTrue hadd => exact decodeRM_consumes_encode (by simp [mem_rmOpcodes, hadd]) h
  split at h
  case isTrue hsub => exact decodeRM_consumes_encode (by simp [mem_rmOpcodes, hsub]) h
  split at h
  case isTrue hcmp => exact decodeRM_consumes_encode (by simp [mem_rmOpcodes, hcmp]) h
  split at h
  case isTrue hmi => exact decodeMI_consumes_encode hmi h
  split at h
  case isTrue hj =>
    subst hj
    exact decodeJ_consumes_encode h
  case isFalse => cases h

/-! ## Sizes -/

/-- The family `Laws.Length` over all instructions. -/
theorem Laws.Length.of_instr : ∀ i : Instr, Statement i
  | .movRmReg w reg rm => movRmReg w reg rm
  | .movRegRm w reg rm => movRegRm w reg rm
  | .movRegImm w reg imm => movRegImm w reg imm
  | .addRmReg w reg rm => addRmReg w reg rm
  | .addRegRm w reg rm => addRegRm w reg rm
  | .addRmImm sx w rm imm => addRmImm sx w rm imm
  | .subRmReg w reg rm => subRmReg w reg rm
  | .subRegRm w reg rm => subRegRm w reg rm
  | .subRmImm sx w rm imm => subRmImm sx w rm imm
  | .cmpRmReg w reg rm => cmpRmReg w reg rm
  | .cmpRegRm w reg rm => cmpRegRm w reg rm
  | .cmpRmImm sx w rm imm => cmpRmImm sx w rm imm
  | .jne disp => jne disp

theorem length_encode (i : Instr) : (encode i).length = i.size := (Laws.Length.of_instr i).1

theorem Instr.size_bounds (i : Instr) : 2 ≤ i.size ∧ i.size ≤ 6 := (Laws.Length.of_instr i).2

@[simp] theorem Machine.recordOf_size (i : Instr) : (Machine.recordOf i).size = i.size := by cases i <;> rfl

/-! ## Decoding CODE at a position -/

/-- A decode at a position answers the instruction whose encoding stands there, and its size. -/
theorem decodeAt_consumes_encode {code : List Byte} {pos n : Nat} {i : Instr} (h : decodeAt code pos = .ok (i, n)) :
    n = i.size ∧ ∃ rest, code.drop pos = encode i ++ rest := by
  unfold decodeAt at h
  split at h
  · cases h
  next j rest hd =>
  cases h
  obtain ⟨-, he⟩ := decode_consumes_encode hd
  refine ⟨?_, rest, he⟩
  rw [he, List.length_append, Nat.add_sub_cancel, length_encode]

/-- Settles O21: the bytes consumed are the encoding, whose length is the size in the record. -/
theorem sizeIsConsumedBytes : Obligations.SizeIsConsumedBytes := by
  intro code pos n i h
  obtain ⟨rfl, rest, he⟩ := decodeAt_consumes_encode h
  obtain ⟨h2, h6⟩ := i.size_bounds
  refine ⟨(Machine.recordOf_size i).symm, h2, h6, ?inside, ?bytes⟩
  case inside =>
    have hlen : code.length - pos = i.size + rest.length := by
      rw [← List.length_drop, he, List.length_append, length_encode]
    omega
  case bytes => rw [he, ← length_encode, List.take_left]

end Sys2Proof

/-! PROOFS. Every form of MOV is one common step: destination := source, FLAGS as before (41_mov.md R163). -/

namespace Sys2Proof.Machine

theorem movEffect_aluStep (dst : Place) (src : Operand) (n : Nat) (s : State) :
    MovEffect (locOf dst s) (readOperand src s) n s (aluStep .mov dst src n s) := by
  refine ⟨?value, aluStep_frame .mov dst src n s, ?flags, toNat_advancePc s.pc n⟩
  case value => rw [aluStep_mov, readLoc_setPc, readLoc_writeLoc_same]
  case flags => rw [aluStep_mov, State.setPc_flags, writeLoc_flags]

/-- An instruction whose record is a MOV completes with the effect of MOV on the record's operands. -/
theorem exec_movEffect_of_record {i : Instr} {dst : Place} {src : Operand} (s : State)
    (hrec : recordOf i = aluRecord .mov dst src i.size) :
    ∃ t, exec i s = .next t ∧ MovEffect (locOf dst s) (readOperand src s) i.size s t :=
  ⟨_, exec_of_record s (by rw [hrec]; rfl) (by rw [hrec]; rfl) (by rw [hrec]; rfl), movEffect_aluStep dst src i.size s⟩

/-- Settles O8: the record of each form names its destination, its source and its size. -/
theorem movFormsComplete : Obligations.MovFormsComplete := by
  refine ⟨fun w reg rm s => ?rmReg, fun w reg rm s => ?regRm, fun w reg imm s => ?regImm⟩
  case rmReg => exact exec_movEffect_of_record (i := .movRmReg w reg rm) s rfl
  case regRm => exact exec_movEffect_of_record (i := .movRegRm w reg rm) s rfl
  case regImm => exact exec_movEffect_of_record (i := .movRegImm w reg imm) s rfl

end Sys2Proof.Machine

/-! PROOFS. SUB and CMP from the same state: the same FLAGS, and SUB's write as the only difference (42_alu.md R182). -/

namespace Sys2Proof.Machine

/-- A write to a location neither reads pc nor writes it. -/
@[simp] theorem writeLoc_setPc (l : Loc) (v p : Word) (s : State) :
    writeLoc l v (s.setPc p) = (writeLoc l v s).setPc p := by
  cases l <;> rfl

theorem aluStep_sub_flags_eq_cmp (dst : Place) (src : Operand) (n : Nat) (s : State) :
    (aluStep .sub dst src n s).flags = (aluStep .cmp dst src n s).flags := by
  rw [aluStep_flags, aluStep_flags, alu_sub, alu_cmp]

theorem readLoc_aluStep_sub (dst : Place) (src : Operand) (n : Nat) (s : State) :
    readLoc (locOf dst s) (aluStep .sub dst src n s) = readLoc (locOf dst s) s - readOperand src s := by
  rw [aluStep_sub, readLoc_setPc, readLoc_setFlags, readLoc_writeLoc_same]

/-- The state after SUB is the state after CMP with SUB's destination value written. -/
theorem aluStep_sub_eq_writeLoc_cmp (dst : Place) (src : Operand) (n : Nat) (s : State) :
    aluStep .sub dst src n s =
      writeLoc (locOf dst s) (readLoc (locOf dst s) (aluStep .sub dst src n s)) (aluStep .cmp dst src n s) := by
  rw [readLoc_aluStep_sub, aluStep_cmp, writeLoc_setPc, writeLoc_setFlags, aluStep_sub]

/-- An instruction whose record is a SUB and one whose record is a CMP of the same operands and size. -/
theorem exec_sub_cmp_agree_of_record {i j : Instr} {dst : Place} {src : Operand} (s : State)
    (hi : recordOf i = aluRecord .sub dst src i.size) (hj : recordOf j = aluRecord .cmp dst src j.size)
    (hsize : i.size = j.size) :
    ∃ t u, exec i s = .next t ∧ exec j s = .next u ∧ t.flags = u.flags ∧
      t = writeLoc (locOf dst s) (readLoc (locOf dst s) t) u := by
  have hsub : exec i s = .next (aluStep .sub dst src i.size s) :=
    exec_of_record s (by rw [hi]; rfl) (by rw [hi]; rfl) (by rw [hi]; rfl)
  have hcmp : exec j s = .next (aluStep .cmp dst src i.size s) :=
    hsize ▸ exec_of_record s (by rw [hj]; rfl) (by rw [hj]; rfl) (by rw [hj]; rfl)
  exact ⟨_, _, hsub, hcmp, aluStep_sub_flags_eq_cmp dst src i.size s, aluStep_sub_eq_writeLoc_cmp dst src i.size s⟩

/-- Settles O13: the records of the two instructions name the same operands. In sequence, from AX = BX = 1, SUB gives Zero
and the CMP after it, of 0 with 1, gives Sign. -/
theorem subAndCmpAgreeOnFlags : Obligations.SubAndCmpAgreeOnFlags := by
  refine ⟨fun w reg rm s => ?rmReg, fun w reg rm s => ?regRm, fun sx w rm imm s => ?rmImm, ?inSequence⟩
  case rmReg =>
    exact exec_sub_cmp_agree_of_record (i := .subRmReg w reg rm) (j := .cmpRmReg w reg rm) s rfl rfl rfl
  case regRm =>
    exact exec_sub_cmp_agree_of_record (i := .subRegRm w reg rm) (j := .cmpRegRm w reg rm) s rfl rfl rfl
  case rmImm =>
    exact exec_sub_cmp_agree_of_record (i := .subRmImm sx w rm imm) (j := .cmpRmImm sx w rm imm) s rfl rfl rfl
  case inSequence => exact ⟨(State.reset.setReg AX 1).setReg BX 1, _, _, rfl, rfl, by decide⟩

end Sys2Proof.Machine

/-! PROOFS. The flag of a value, by the range of its number (42_alu.md R170). -/

namespace Sys2Proof.Machine

theorem setFlagBasedOnValue_of_eq_zero {v : Word} (h : v.toNat = 0) : setFlagBasedOnValue v = .zero :=
  if_pos (BitVec.eq_of_toNat_eq h)

/-- Of a value that is not zero, the flag is bit 15. -/
theorem setFlagBasedOnValue_of_pos {v : Word} (h : 0 < v.toNat) :
    setFlagBasedOnValue v = if v.toNat < 32768 then .none else .sign := by
  have hv : v ≠ 0 := by
    rintro rfl
    exact absurd h (by decide)
  simp only [setFlagBasedOnValue, if_neg hv, ne_eq, and_signBit_eq_zero, ite_not]

/-- Settles O1: one case for each of the three ranges, which exclude each other. -/
theorem flagOfValueRule : Obligations.FlagOfValueRule := by
  intro v
  rcases Nat.eq_zero_or_pos v.toNat with h0 | hpos
  · simp [setFlagBasedOnValue_of_eq_zero h0, h0]
  rw [setFlagBasedOnValue_of_pos hpos]
  rcases Nat.lt_or_ge v.toNat 32768 with hlow | hhigh
  · rw [if_pos hlow]
    simp [hpos, hpos.ne', hlow]
  · rw [if_neg hhigh.not_gt]
    simp [hpos.ne', hhigh]

end Sys2Proof.Machine

/-! PROOFS. The branch resolver and JNE through it (43_branch.md R190, R191). -/

namespace Sys2Proof.Machine

theorem branchTaken_iff (f : Flag) : branchTaken f = true ↔ f ≠ .zero := bne_iff_ne

theorem nextPc_zero (pcadv d : Word) : nextPc .zero pcadv d = pcadv := rfl

/-- The wrapping sum is the exact sum with the signed delta, modulo 65536 (43_branch.md R192). -/
theorem toNat_jumpPc (pc d : Word) : ((jumpPc pc d).toNat : Int) = (pc.toNat + d.toInt) % 65536 := by
  rw [jumpPc, BitVec.toNat_add, BitVec.toInt_eq_toNat_cond]
  split <;> omega

theorem toNat_nextPc_of_ne_zero {f : Flag} (pcadv d : Word) (h : f ≠ .zero) :
    ((nextPc f pcadv d).toNat : Int) = (pcadv.toNat + d.toInt) % 65536 := by
  rw [nextPc_of_ne_zero pcadv d h, toNat_jumpPc]

/-- The taken target of a JNE at `pc`: reducing once, after both additions, gives the same pointer. -/
theorem toNat_nextPc_advancePc_sext16 {f : Flag} (pc : Word) (n : Nat) (disp : Byte) (h : f ≠ .zero) :
    ((nextPc f (advancePc pc n) (sext16 disp)).toNat : Int) = (pc.toNat + n + disp.toInt) % 65536 := by
  rw [toNat_nextPc_of_ne_zero _ _ h, toNat_advancePc, toInt_sext16]
  omega

/-- Settles O12: the resolver by its one question, then JNE as a write of pc to the resolver's answer. -/
theorem jneResolvesBranch : Obligations.JneResolvesBranch := by
  refine ⟨fun f pcadv d => ⟨branchTaken_iff f, toNat_nextPc_of_ne_zero pcadv d, ?resolvedZero⟩,
    fun disp s => ⟨_, exec_jne disp s, ?notTaken, toNat_nextPc_advancePc_sext16 s.pc 2 disp, rfl,
      frameExcept_setPc _ (frameExcept_refl none s)⟩⟩
  case resolvedZero =>
    rintro rfl
    exact nextPc_zero pcadv d
  case notTaken =>
    intro hz
    rw [State.setPc_pc, hz, nextPc_zero, toNat_advancePc]

end Sys2Proof.Machine

/-! PROOFS. What the read of each kind of operand gives, and what a location's read and write are (44_sequencer.md R204,
R205). -/

namespace Sys2Proof.Machine

theorem readLoc_reg (i : RegIndex) (s : State) : readLoc (.reg i) s = s.reg i := rfl
theorem readLoc_cell (a : Word) (s : State) : readLoc (.cell a) s = s.memRead a := rfl
theorem writeLoc_reg (i : RegIndex) (v : Word) (s : State) : writeLoc (.reg i) v s = s.setReg i v := rfl
theorem writeLoc_cell (a v : Word) (s : State) : writeLoc (.cell a) v s = s.memWrite a v := rfl

theorem readOperand_immediate (v : Word) (s : State) : readOperand (.immediate v) s = v := rfl
theorem readOperand_place (p : Place) (s : State) : readOperand (.place p) s = readLoc (locOf p s) s := rfl

theorem locOf_register (i : RegIndex) (s : State) : locOf (.register i) s = .reg i := rfl
theorem locOf_memory (b : Base) (d : Word) (s : State) : locOf (.memory b d) s = .cell (effectiveAddress b d s) := rfl

theorem readOperand_register (i : RegIndex) (s : State) : readOperand (.place (.register i)) s = s.reg i := by
  rw [readOperand_place, locOf_register, readLoc_reg]

theorem readOperand_memory (b : Base) (d : Word) (s : State) :
    readOperand (.place (.memory b d)) s = s.memRead (effectiveAddress b d s) := by
  rw [readOperand_place, locOf_memory, readLoc_cell]

/-- Settles O45: one read rule for each kind of operand, one read and one write rule for each kind of location. -/
theorem operandAccess : Obligations.OperandAccess :=
  ⟨fun i b d v s => ⟨readOperand_register i s, readOperand_memory b d s, readOperand_immediate v s⟩,
    fun i a v s => ⟨readLoc_reg i s, readLoc_cell a s, writeLoc_reg i v s, writeLoc_cell a v s⟩⟩

end Sys2Proof.Machine

/-! PROOFS. The loop test ends the run (44_sequencer.md R201), and what the final-state snapshot lists (R214). -/

namespace Sys2Proof.Machine

theorem step_of_ready_of_len_le_pc {s : State} (h : s.ready) (hpc : s.len ≤ s.pc.toNat) :
    step s = .next { s with run := .halted } := by
  rw [step_of_ready h, runningStep_halts hpc, haltRun_eq]

theorem startOf_ready {code : List Byte} (h : code.length ≤ Config.maxLen) : (startOf code).ready := ⟨rfl, h⟩

/-- Settles O28: the halting step of a ready machine, of which the start on the empty CODE, with LEN = pc = 0, is one. -/
theorem loopTestHalts : Obligations.LoopTestHalts :=
  ⟨fun _ => step_of_ready_of_len_le_pc, step_of_ready_of_len_le_pc (startOf_ready (Nat.zero_le _)) (Nat.zero_le _)⟩

/-- The list pairs every register with its value and keeps the pairs whose value is not zero. -/
theorem State.mem_snapshot_nonZeroRegs (s : State) (i : RegIndex) (v : Word) :
    (i, v) ∈ s.snapshot.nonZeroRegs ↔ s.reg i = v ∧ v ≠ 0 := by
  have listed : (i, v) ∈ (List.finRange Config.nreg).map (fun j => (j, s.reg j)) ↔ s.reg i = v := by
    simp [List.mem_map, Prod.ext_iff]
  rw [State.snapshot, List.mem_filter, listed, bne_iff_ne]

@[simp] theorem State.snapshot_pc (s : State) : s.snapshot.pc = s.pc := rfl
@[simp] theorem State.snapshot_flags (s : State) : s.snapshot.flags = s.flags := rfl

/-- Settles O43: membership in the list of non-zero registers, then pc and FLAGS. -/
theorem snapshotListsNonZeroRegisters : Obligations.SnapshotListsNonZeroRegisters := fun s =>
  ⟨s.mem_snapshot_nonZeroRegs, s.snapshot_pc, s.snapshot_flags⟩

end Sys2Proof.Machine

/-! PROOFS. Where `decode` fails for want of bytes (40_decoder.md R134): exactly where the bytes end inside an encoding, since
the encoder is read back whole and an UnrecognizedOpcode stays one whatever bytes follow (R136). -/

namespace Sys2Proof

/-! ## The decoder reads the encoder back -/

theorem decode_encodeFormRM {op : AluOp} {o : BitVec 6} (hop : (op, o) ∈ rmOpcodes) (d : Bool) (w : Width) (reg : RegNum)
    {rm : RM} (rest : List Byte) (h : rm.wf = true) :
    decode (encodeFormRM o d w reg rm ++ rest) = .ok (formRM op d w reg rm, rest) := by
  rw [encodeFormRM, List.cons_append, decode_firstByte_RM hop, decodeRM_encodeRM op _ reg rm rest h, bit1Field_firstByte,
    wField_firstByte]

theorem decode_encodeFormMI {g : BitVec 3} {op : AluOp} (hg : subOpcode g = some op) {sx : Bool} {w : Width} {rm : RM}
    {v : Word} {i : Instr} (rest : List Byte) (hf : formMI op sx w rm v = some i)
    (h : (rm.wf && immFitsMI sx w v) = true) : decode (encodeFormMI g sx w rm v ++ rest) = .ok (i, rest) := by
  obtain ⟨hrm, hv⟩ := Bool.and_eq_true_iff.1 h
  rw [encodeFormMI, List.cons_append, List.append_assoc, decode_firstByte_MI, decodeMI_encode hg rest hrm hv hf]

theorem decode_encode_movRegImm {w : Width} (reg : RegNum) {v : Word} (rest : List Byte) (h : immFitsRI w v = true) :
    decode (encode (.movRegImm w reg v) ++ rest) = .ok (.movRegImm w reg v, rest) := by
  rw [encode, List.cons_append, decode_firstByteRI, decodeRI_eq_ok, wFieldRI_firstByteRI, regFieldRI_firstByteRI]
  exact ⟨v, h, rfl, rfl⟩

/-- The bytes of a well-formed instruction decode to it, whatever follows. -/
theorem decode_encode {i : Instr} (rest : List Byte) (h : i.wf = true) : decode (encode i ++ rest) = .ok (i, rest) := by
  cases i with
  | movRmReg w reg rm => exact decode_encodeFormRM (op := .mov) (by decide) false w reg rest h
  | movRegRm w reg rm => exact decode_encodeFormRM (op := .mov) (by decide) true w reg rest h
  | movRegImm w reg v => exact decode_encode_movRegImm reg rest h
  | addRmReg w reg rm => exact decode_encodeFormRM (op := .add) (by decide) false w reg rest h
  | addRegRm w reg rm => exact decode_encodeFormRM (op := .add) (by decide) true w reg rest h
  | addRmImm sx w rm v => exact decode_encodeFormMI (op := .add) (by decide) rest rfl h
  | subRmReg w reg rm => exact decode_encodeFormRM (op := .sub) (by decide) false w reg rest h
  | subRegRm w reg rm => exact decode_encodeFormRM (op := .sub) (by decide) true w reg rest h
  | subRmImm sx w rm v => exact decode_encodeFormMI (op := .sub) (by decide) rest rfl h
  | cmpRmReg w reg rm => exact decode_encodeFormRM (op := .cmp) (by decide) false w reg rest h
  | cmpRegRm w reg rm => exact decode_encodeFormRM (op := .cmp) (by decide) true w reg rest h
  | cmpRmImm sx w rm v => exact decode_encodeFormMI (op := .cmp) (by decide) rest rfl h
  | jne disp => rfl

/-! ## Each format's failures -/

/-- The bytes begin the encoding of a well-formed instruction and miss at least its last byte. -/
def StopsInsideEncoding (bs : List Byte) : Prop :=
  ∃ (i : Instr) (more : List Byte), i.wf = true ∧ more ≠ [] ∧ bs ++ more = encode i

theorem stopsInsideEncoding_iff_take {bs : List Byte} :
    StopsInsideEncoding bs ↔ ∃ (i : Instr) (k : Nat), i.wf = true ∧ k < i.size ∧ bs = (encode i).take k := by
  constructor
  · rintro ⟨i, more, hw, hm, he⟩
    refine ⟨i, bs.length, hw, ?_, by rw [← he, List.take_left]⟩
    rw [← length_encode, ← he, List.length_append]
    exact Nat.lt_add_of_pos_right (List.length_pos_of_ne_nil hm)
  · rintro ⟨i, k, hw, hk, rfl⟩
    refine ⟨i, (encode i).drop k, hw, ?_, List.take_append_drop k _⟩
    rw [ne_eq, List.drop_eq_nil_iff, length_encode]
    exact hk.not_ge

/-- An instruction has at most six bytes, so at most five stand before its end (30_encoding.md R85). -/
theorem StopsInsideEncoding.length_le {bs : List Byte} (h : StopsInsideEncoding bs) : bs.length ≤ 5 := by
  obtain ⟨i, k, -, hk, rfl⟩ := stopsInsideEncoding_iff_take.1 h
  have htake := List.length_take_le k (encode i)
  have hsize := i.size_bounds.2
  omega

theorem decodeRM_error_stopsInside {op : AluOp} {b0 : Byte} {bs : List Byte} {e : DecodeError}
    (hop : (op, b0.extractLsb' 2 6) ∈ rmOpcodes) (h : decodeRM op b0 bs = .error e) :
    e = .truncatedInput ∧ StopsInsideEncoding (b0 :: bs) := by
  obtain ⟨rfl, reg, rm, hw, more, hm, he⟩ := decodeRM_eq_error h
  obtain ⟨henc, hwf⟩ := encode_formRM hop (bit1Field b0) (wField b0) reg rm
  refine ⟨rfl, _, more, hwf.trans hw, hm, ?_⟩
  rw [henc, encodeFormRM, firstByte_fields, List.cons_append, he]

theorem decodeRI_error_stopsInside {b0 : Byte} {bs : List Byte} {e : DecodeError} (hb : b0.extractLsb' 4 4 = 0b1011#4)
    (h : decodeRI b0 bs = .error e) : e = .truncatedInput ∧ StopsInsideEncoding (b0 :: bs) := by
  obtain ⟨rfl, v, hv, more, hm, he⟩ := decodeRI_eq_error h
  refine ⟨rfl, .movRegImm (wFieldRI b0) (regFieldRI b0) v, more, hv, hm, ?_⟩
  rw [encode, firstByteRI_fields b0 hb, List.cons_append, he]

theorem decodeJ_error_stopsInside {bs : List Byte} {e : DecodeError} (h : decodeJ bs = .error e) :
    e = .truncatedInput ∧ StopsInsideEncoding (0x75#8 :: bs) := by
  simp only [decodeJ, bind_eq_error, need_eq_error, Prod.exists] at h
  rcases h with ⟨rfl, rfl⟩ | ⟨_, _, _, h⟩
  · exact ⟨rfl, .jne 0, [0], rfl, List.cons_ne_nil _ _, rfl⟩
  · cases h

/-- A sub-opcode without an operation fails the decode whatever follows it (30_encoding.md R105). -/
theorem decode_unrecognized_of_subOpcode {b0 b1 : Byte} (hb : b0.extractLsb' 2 6 = 0b100000#6)
    (hsub : subOpcode (regField b1) = none) (bs : List Byte) : decode (b0 :: b1 :: bs) = .error .unrecognizedOpcode := by
  rw [← firstByte_fields b0, hb, decode_firstByte_MI]
  simp only [decodeMI, need_cons, bind, Except.bind, hsub]

/-- Format MI fails inside an encoding, or at a sub-opcode that no further byte mends. -/
theorem decodeMI_error_cases {b0 : Byte} {bs : List Byte} {e : DecodeError} (hb : b0.extractLsb' 2 6 = 0b100000#6)
    (h : decodeMI b0 bs = .error e) :
    (e = .truncatedInput ∧ StopsInsideEncoding (b0 :: bs)) ∨
    (e = .unrecognizedOpcode ∧ ∀ more, decode (b0 :: bs ++ more) = .error .unrecognizedOpcode) := by
  rcases decodeMI_eq_error h with ⟨rfl, b1, bs1, rfl, hsub⟩ | ⟨rfl, g, op, rm, v, hg, hw, hv, more, hm, he⟩
  · exact .inr ⟨rfl, fun more => decode_unrecognized_of_subOpcode hb hsub (bs1 ++ more)⟩
  · obtain ⟨i, -, henc, hwf⟩ := encode_formMI hg (bit1Field b0) (wField b0) rm v
    refine .inl ⟨rfl, i, more, by rw [hwf, hw, hv, Bool.and_self], hm, ?_⟩
    rw [henc, encodeFormMI, ← hb, firstByte_fields, List.cons_append, he]

/-! ## The decoder's failures -/

/-- `decode` fails inside an encoding, or for good. The cases are the tests of the first byte, in the decoder's order
(40_decoder.md R125). -/
theorem decode_error_cases {bs : List Byte} {e : DecodeError} (h : decode bs = .error e) :
    (e = .truncatedInput ∧ StopsInsideEncoding bs) ∨
    (e = .unrecognizedOpcode ∧ ∀ more, decode (bs ++ more) = .error .unrecognizedOpcode) := by
  simp only [decode, bind_eq_error, need_eq_error, need_eq_ok, Prod.exists] at h
  rcases h with ⟨rfl, rfl⟩ | ⟨b0, bs, rfl, h⟩
  · exact .inl ⟨rfl, .jne 0, encode (.jne 0), rfl, List.cons_ne_nil _ _, rfl⟩
  split at h
  case isTrue hmov => exact .inl (decodeRM_error_stopsInside (by simp [mem_rmOpcodes, hmov]) h)
  split at h
  case isTrue hri => exact .inl (decodeRI_error_stopsInside hri h)
  split at h
  case isTrue hadd => exact .inl (decodeRM_error_stopsInside (by simp [mem_rmOpcodes, hadd]) h)
  split at h
  case isTrue hsub => exact .inl (decodeRM_error_stopsInside (by simp [mem_rmOpcodes, hsub]) h)
  split at h
  case isTrue hcmp => exact .inl (decodeRM_error_stopsInside (by simp [mem_rmOpcodes, hcmp]) h)
  split at h
  case isTrue hmi => exact decodeMI_error_cases hmi h
  split at h
  case isTrue hj =>
    subst hj
    exact .inl (decodeJ_error_stopsInside h)
  case isFalse hmov hri hadd hsub hcmp hmi hj =>
    cases h
    refine .inr ⟨rfl, fun more => ?_⟩
    simp only [decode, List.cons_append, need_cons, bind, Except.bind, hmov, hri, hadd, hsub, hcmp, hmi, hj, if_false]

/-- TruncatedInput comes exactly where the bytes end inside an encoding: there `decode` cannot answer an instruction, which would
have to be the whole encoding's, nor an UnrecognizedOpcode, which the whole encoding would then give too. -/
theorem decode_truncated_iff {bs : List Byte} : decode bs = .error .truncatedInput ↔ StopsInsideEncoding bs := by
  constructor
  · intro h
    rcases decode_error_cases h with ⟨-, hstop⟩ | ⟨he, -⟩
    · exact hstop
    · cases he
  · rintro ⟨i, more, hw, hm, he⟩
    have whole : decode (bs ++ more) = .ok (i, []) := by
      rw [he, ← List.append_nil (encode i), decode_encode [] hw]
    cases hd : decode bs with
    | error e =>
      rcases decode_error_cases hd with ⟨rfl, -⟩ | ⟨-, hbad⟩
      · rfl
      · rw [hbad more] at whole
        cases whole
    | ok r =>
      obtain ⟨j, rest⟩ := r
      obtain ⟨hj, rfl⟩ := decode_consumes_encode hd
      rw [List.append_assoc, decode_encode _ hj] at whole
      have hnil : rest ++ more = [] := by simpa using (Prod.mk.inj (Except.ok.inj whole)).2
      exact absurd (List.append_eq_nil_iff.1 hnil).2 hm

end Sys2Proof

/-! PROOFS. When a step raises TruncatedInput (60_exceptions.md R222). -/

namespace Sys2Proof.Machine

/-- Of the ways a running machine steps, only the decoder's failure for want of bytes raises TruncatedInput. -/
theorem step_run_truncated_iff {s t : State} (hrun : s.run = .running) (h : step s = .next t) :
    t.run = .faulted .truncatedInput ↔
      s.pc.toNat < s.len ∧ decode (s.code.drop s.pc.toNat) = .error .truncatedInput := by
  obtain ⟨-, ⟨hpc, rfl⟩ | ⟨hpc, e, hd, rfl⟩ | ⟨hpc, i, rest, hd, hexec⟩⟩ := step_cases h
  case inl => simp [hpc.not_gt]
  case inr.inl => cases e <;> simp [hpc, hd, faultOfDecodeError]
  case inr.inr => simp [(exec_keeps hexec).1, hrun, hd]

/-- A ready machine whose bytes from pc on are too few does raise it. -/
theorem step_faults_of_ready {s : State} {e : DecodeError} (h : s.ready) (hpc : s.pc.toNat < s.len)
    (hd : decode (s.code.drop s.pc.toNat) = .error e) : step s = .next (takeFault (faultOfDecodeError e) s) := by
  rw [step_of_ready h, runningStep_faults hpc hd]

/-- Settles O33: a step raises TruncatedInput where the decoder does, on bytes that end inside an encoding; of these there are at
most five; and the condition speaks of CODE and pc alone. -/
theorem truncatedInputOnlyNearTheEnd : Obligations.TruncatedInputOnlyNearTheEnd := by
  refine ⟨fun s hready hpc => ?exactly, fun s t hrun hstep hfault => ?nearTheEnd,
    fun s t s' t' hrun hrun' hcode hpc hstep hstep' => ?codeAndPc⟩
  case exactly =>
    rw [← stopsInsideEncoding_iff_take, ← decode_truncated_iff]
    constructor
    · rintro ⟨t, hstep, hfault⟩
      exact ((step_run_truncated_iff hready.1 hstep).1 hfault).2
    · intro hd
      exact ⟨_, step_faults_of_ready hready hpc hd, rfl⟩
  case nearTheEnd =>
    obtain ⟨hpc, hd⟩ := (step_run_truncated_iff hrun hstep).1 hfault
    have hlen := (decode_truncated_iff.1 hd).length_le
    rw [List.length_drop] at hlen
    exact ⟨hpc, Nat.sub_le_iff_le_add'.1 hlen⟩
  case codeAndPc =>
    rw [step_run_truncated_iff hrun hstep, step_run_truncated_iff hrun' hstep', State.len, State.len, hcode, hpc]

end Sys2Proof.Machine

/-! PROOFS. The decoder and the encoder are inverse to each other (30_encoding.md sections 1 to 5). -/

namespace Sys2Proof

/-- Settles O17: the encoding of each constructor is read back by its format. -/
theorem decodeOfEncode : Obligations.DecodeOfEncode := fun _ rest h => decode_encode rest h

/-- Settles O18: each format consumes the encoding of what it answers. -/
theorem encodeOfDecode : Obligations.EncodeOfDecode := fun _ _ _ h => decode_consumes_encode h

/-- Settles O20: the decoder is short of bytes exactly inside an encoding. -/
theorem truncatedInputExactly : Obligations.TruncatedInputExactly := fun _ =>
  decode_truncated_iff.trans stopsInsideEncoding_iff_take

end Sys2Proof

/-! PROOFS. What every step keeps: CODE (20_memory.md section 6), and the invariant of the machine. -/

namespace Sys2Proof.Machine

/-- A step changes neither CODE nor the canonical form of DM, and no decode error becomes UnsupportedOperation
(60_exceptions.md R223). The cases are the three ways a running machine steps. -/
theorem step_keeps {s t : State} (h : step s = .next t) :
    t.code = s.code ∧ (s.dm.wf → t.dm.wf) ∧ t.run ≠ .faulted .unsupportedOperation := by
  obtain ⟨⟨hrun, -⟩, ⟨-, rfl⟩ | ⟨-, e, -, rfl⟩ | ⟨-, i, rest, -, hexec⟩⟩ := step_cases h
  case inl => exact ⟨rfl, id, nofun⟩
  case inr.inl => exact ⟨rfl, id, by cases e <;> nofun⟩
  case inr.inr =>
    obtain ⟨hr, hcode, hdm⟩ := exec_keeps hexec
    exact ⟨hcode, hdm, by rw [hr, hrun]; nofun⟩

/-- Settles O36: of what every step keeps, CODE. -/
theorem stepNeverWritesCode : Obligations.StepNeverWritesCode := fun _ _ h => (step_keeps h).1

/-- Settles O37: each of the three parts is kept; LEN is the length of CODE. -/
theorem stepKeepsTheInvariant : Obligations.StepKeepsTheInvariant := by
  rintro s t ⟨hdm, hlen, -⟩ h
  obtain ⟨hcode, hwf, hrun⟩ := step_keeps h
  exact ⟨hwf hdm, by rwa [State.len, hcode], hrun⟩

/-- Settles O38: DM is empty, LEN is that of the CODE supplied, RUN is Running. -/
theorem startMeetsTheInvariant : Obligations.StartMeetsTheInvariant :=
  ⟨⟨State.reset_dm_wf, Nat.zero_le _, nofun⟩, fun _ hlen => ⟨State.resetAction_dm_wf _, hlen, nofun⟩⟩

end Sys2Proof.Machine

/-! PROOFS. The canonical form of DM (log 3) is unique: what a memory lists is determined by what it reads as. -/

namespace Sys2Proof.Machine

theorem Memory.wf_cons {k : Nat} {v : Word} {m : Memory} : Memory.wf ((k, v) :: m) ↔
    (∀ c ∈ m, k < c.1) ∧ k < Config.dmSize ∧ v ≠ Config.unlistedCell ∧ m.wf := by
  simp only [Memory.wf, List.pairwise_cons, List.forall_mem_cons]
  tauto

theorem Memory.read_cons_same (k : Nat) (v : Word) (m : Memory) : Memory.read ((k, v) :: m) k = v := if_pos rfl

theorem Memory.read_cons_of_ne {k a : Nat} (v : Word) (m : Memory) (h : k ≠ a) :
    Memory.read ((k, v) :: m) a = m.read a := if_neg h

/-- An address below every listed one is not listed. -/
theorem Memory.read_of_lt {m : Memory} {a : Nat} (h : ∀ c ∈ m, a < c.1) : m.read a = Config.unlistedCell := by
  induction m with
  | nil => rfl
  | cons c m ih =>
    obtain ⟨hc, hm⟩ := List.forall_mem_cons.1 h
    rw [Memory.read_cons_of_ne c.2 m hc.ne', ih hm]

/-- What a canonical memory lists first does not read as unlisted. -/
theorem Memory.read_head_ne_unlisted {k : Nat} {v : Word} {m : Memory} (hm : Memory.wf ((k, v) :: m)) :
    Memory.read ((k, v) :: m) k ≠ Config.unlistedCell := by
  obtain ⟨-, -, hv, -⟩ := Memory.wf_cons.1 hm
  rwa [Memory.read_cons_same]

/-- Of two canonical memories that read the same at the first listed address of one, the other starts no later: it would read as
unlisted there. -/
theorem Memory.head_le_of_read_eq {j k : Nat} {v w : Word} {m n : Memory} (hm : Memory.wf ((k, v) :: m))
    (hn : Memory.wf ((j, w) :: n)) (h : Memory.read ((k, v) :: m) k = Memory.read ((j, w) :: n) k) : j ≤ k := by
  by_contra hlt
  have hkj : k < j := Nat.lt_of_not_le hlt
  have hbelow : ∀ c ∈ (j, w) :: n, k < c.1 :=
    List.forall_mem_cons.2 ⟨hkj, fun c hc => hkj.trans ((Memory.wf_cons.1 hn).1 c hc)⟩
  exact Memory.read_head_ne_unlisted hm (h.trans (Memory.read_of_lt hbelow))

/-- Below `k` and at `k` nothing of the two tails is listed; above it the heads do not matter. -/
theorem Memory.tails_read_eq {k : Nat} {v w : Word} {m n : Memory} (hm : ∀ c ∈ m, k < c.1) (hn : ∀ c ∈ n, k < c.1)
    {a : Nat} (h : Memory.read ((k, v) :: m) a = Memory.read ((k, w) :: n) a) : m.read a = n.read a := by
  by_cases ha : k = a
  · subst ha
    rw [Memory.read_of_lt hm, Memory.read_of_lt hn]
  · rwa [Memory.read_cons_of_ne v m ha, Memory.read_cons_of_ne w n ha] at h

theorem Memory.eq_of_read_eq {m n : Memory} (hm : m.wf) (hn : n.wf)
    (h : ∀ a < Config.dmSize, m.read a = n.read a) : m = n := by
  induction m generalizing n with
  | nil =>
    cases n with
    | nil => rfl
    | cons d n =>
      obtain ⟨-, hj, -, -⟩ := Memory.wf_cons.1 hn
      exact absurd (h d.1 hj).symm (Memory.read_head_ne_unlisted hn)
  | cons c m ih =>
    obtain ⟨k, v⟩ := c
    obtain ⟨hkm, hk, -, hmwf⟩ := Memory.wf_cons.1 hm
    cases n with
    | nil => exact absurd (h k hk) (Memory.read_head_ne_unlisted hm)
    | cons d n =>
      obtain ⟨j, w⟩ := d
      obtain ⟨hjn, hj, -, hnwf⟩ := Memory.wf_cons.1 hn
      obtain rfl : j = k :=
        Nat.le_antisymm (Memory.head_le_of_read_eq hm hn (h k hk)) (Memory.head_le_of_read_eq hn hm (h j hj).symm)
      have hvw := h j hj
      rw [Memory.read_cons_same, Memory.read_cons_same] at hvw
      rw [hvw, ih hmwf hnwf fun a ha => Memory.tails_read_eq hkm hjn (h a ha)]

/-- Settles O6: by induction on the two lists; the first listed addresses agree, then their cells, then the tails. -/
theorem canonicalMemoryIsUnique : Obligations.CanonicalMemoryIsUnique := fun m n hm hn h =>
  Memory.eq_of_read_eq hm hn fun a ha => by
    have hword := h (BitVec.ofNat 16 a)
    rwa [BitVec.toNat_ofNat, Nat.mod_eq_of_lt (b := 2 ^ 16) ha] at hword

end Sys2Proof.Machine

/-! PROOFS. What the ALU dispatch hands back, in exact arithmetic (42_alu.md R171, R172), and every form of ADD, SUB and CMP as
one common step. -/

namespace Sys2Proof.Machine

/-! ## Exact arithmetic -/

theorem toNat_word_add (x y : Word) : (x + y).toNat = (x.toNat + y.toNat) % 65536 := BitVec.toNat_add x y

theorem toNat_word_sub (x y : Word) : (x - y).toNat = (x.toNat + 65536 - y.toNat) % 65536 := by
  rw [BitVec.toNat_sub]
  have hy := y.isLt
  congr 1
  omega

/-- Settles O2: the sum and the difference are their own witnesses. -/
theorem aluDispatchResults : Obligations.AluDispatchResults := fun lhs rhs =>
  ⟨alu_mov lhs rhs, ⟨_, toNat_word_add lhs rhs, alu_add lhs rhs⟩,
    ⟨_, toNat_word_sub lhs rhs, alu_sub lhs rhs, alu_cmp lhs rhs⟩⟩

/-! ## The effect of the common semantics -/

/-- An instruction with an ALU record completes with the common semantics on the record's operands. -/
theorem exec_of_aluRecord {i : Instr} {op : AluOp} {dst : Place} {src : Operand} (s : State)
    (hrec : recordOf i = aluRecord op dst src i.size) : exec i s = .next (aluStep op dst src i.size s) :=
  exec_of_record s (by rw [hrec]; rfl) (by rw [hrec]; rfl) (by rw [hrec]; rfl)

theorem readLoc_aluStep_add (dst : Place) (src : Operand) (n : Nat) (s : State) :
    readLoc (locOf dst s) (aluStep .add dst src n s) = readLoc (locOf dst s) s + readOperand src s := by
  rw [aluStep_add, readLoc_setPc, readLoc_setFlags, readLoc_writeLoc_same]

theorem addEffect_aluStep (dst : Place) (src : Operand) (n : Nat) (s : State) :
    AddEffect (locOf dst s) (readOperand src s) n s (aluStep .add dst src n s) := by
  refine ⟨?value, ?flags, aluStep_frame .add dst src n s, toNat_advancePc s.pc n⟩
  case value => rw [readLoc_aluStep_add, toNat_word_add]
  case flags => rw [readLoc_aluStep_add, aluStep_flags, alu_add, Option.getD_some]

theorem subEffect_aluStep (dst : Place) (src : Operand) (n : Nat) (s : State) :
    SubEffect (locOf dst s) (readOperand src s) n s (aluStep .sub dst src n s) := by
  refine ⟨?value, ?flags, aluStep_frame .sub dst src n s, toNat_advancePc s.pc n⟩
  case value => rw [readLoc_aluStep_sub, toNat_word_sub]
  case flags => rw [readLoc_aluStep_sub, aluStep_flags, alu_sub, Option.getD_some]

theorem cmpEffect_aluStep (dst : Place) (src : Operand) (n : Nat) (s : State) :
    CmpEffect (readLoc (locOf dst s) s) (readOperand src s) n s (aluStep .cmp dst src n s) := by
  refine ⟨⟨_, toNat_word_sub _ _, ?flags⟩, aluStep_frame .cmp dst src n s, toNat_advancePc s.pc n⟩
  case flags => rw [aluStep_flags, alu_cmp, Option.getD_some]

theorem exec_addEffect_of_record {i : Instr} {dst : Place} {src : Operand} (s : State)
    (hrec : recordOf i = aluRecord .add dst src i.size) :
    ∃ t, exec i s = .next t ∧ AddEffect (locOf dst s) (readOperand src s) i.size s t :=
  ⟨_, exec_of_aluRecord s hrec, addEffect_aluStep dst src i.size s⟩

theorem exec_subEffect_of_record {i : Instr} {dst : Place} {src : Operand} (s : State)
    (hrec : recordOf i = aluRecord .sub dst src i.size) :
    ∃ t, exec i s = .next t ∧ SubEffect (locOf dst s) (readOperand src s) i.size s t :=
  ⟨_, exec_of_aluRecord s hrec, subEffect_aluStep dst src i.size s⟩

theorem exec_cmpEffect_of_record {i : Instr} {dst : Place} {src : Operand} (s : State)
    (hrec : recordOf i = aluRecord .cmp dst src i.size) :
    ∃ t, exec i s = .next t ∧ CmpEffect (readLoc (locOf dst s) s) (readOperand src s) i.size s t :=
  ⟨_, exec_of_aluRecord s hrec, cmpEffect_aluStep dst src i.size s⟩

/-- Settles O9: the record of each form names its destination, its source and its size. -/
theorem addFormsComplete : Obligations.AddFormsComplete :=
  ⟨fun w reg rm s => exec_addEffect_of_record (i := .addRmReg w reg rm) s rfl,
    fun w reg rm s => exec_addEffect_of_record (i := .addRegRm w reg rm) s rfl,
    fun sx w rm imm s => exec_addEffect_of_record (i := .addRmImm sx w rm imm) s rfl⟩

/-- Settles O10: the record of each form names its destination, its source and its size. -/
theorem subFormsComplete : Obligations.SubFormsComplete :=
  ⟨fun w reg rm s => exec_subEffect_of_record (i := .subRmReg w reg rm) s rfl,
    fun w reg rm s => exec_subEffect_of_record (i := .subRegRm w reg rm) s rfl,
    fun sx w rm imm s => exec_subEffect_of_record (i := .subRmImm sx w rm imm) s rfl⟩

/-- Settles O11: the record of each form names its two operands and its size. -/
theorem cmpFormsComplete : Obligations.CmpFormsComplete :=
  ⟨fun w reg rm s => exec_cmpEffect_of_record (i := .cmpRmReg w reg rm) s rfl,
    fun w reg rm s => exec_cmpEffect_of_record (i := .cmpRegRm w reg rm) s rfl,
    fun sx w rm imm s => exec_cmpEffect_of_record (i := .cmpRmImm sx w rm imm) s rfl⟩

end Sys2Proof.Machine

/-! PROOFS. What an instruction leaves unchanged (44_sequencer.md section 2), and from that the separation of byte and word
registers (10_state.md section 2). -/

namespace Sys2Proof.Machine

/-- The written location is the destination of the record, but for CMP. -/
theorem writtenLoc_of_aluRecord {i : Instr} {op : AluOp} {dst : Place} {src : Operand} (s : State)
    (hrec : recordOf i = aluRecord op dst src i.size) :
    writtenLoc i s = if op = .cmp then none else some (locOf dst s) := by
  cases i <;> cases hrec <;> rfl

theorem exec_frame {i : Instr} {s t : State} (h : exec i s = .next t) : FrameExcept (writtenLoc i s) s t := by
  rcases exec_cases i s with ⟨op, dst, src, hrec, he⟩ | ⟨d, rfl, he⟩
  · obtain rfl : aluStep op dst src i.size s = t := by simpa [he] using h
    rw [writtenLoc_of_aluRecord s hrec]
    exact aluStep_frame op dst src i.size s
  · obtain rfl : s.setPc _ = t := by simpa [he] using h
    exact frameExcept_setPc _ (frameExcept_refl none s)

/-- Settles O14: the common semantics writes the destination of its record, JNE writes pc alone. -/
theorem instructionFrame : Obligations.InstructionFrame := fun _ _ _ => exec_frame

/-! ## Byte and word registers -/

theorem regIndex_word_val (n : RegNum) : (regIndex .word n).val = n.toNat := rfl

theorem regIndex_byte_val (n : RegNum) : (regIndex .byte n).val = 8 + n.toNat := rfl

/-- A register cell belongs to one width: cells 0 to 7 to word, 8 to 15 to byte. -/
theorem width_eq_of_regIndex_eq {w w' : Width} {n n' : RegNum} (h : regIndex w n = regIndex w' n') : w = w' := by
  have hval : (regIndex w n).val = (regIndex w' n').val := by rw [h]
  have hn := n.isLt
  have hn' := n'.isLt
  cases w <;> cases w'
  case byte.byte => rfl
  case word.word => rfl
  all_goals
    simp only [regIndex_word_val, regIndex_byte_val] at hval
    omega

/-- A register that an r/m operand names is one of the operand's width. -/
theorem locOf_rmPlace_eq_reg {w : Width} {rm : RM} {s : State} {j : RegIndex} (h : locOf (rmPlace w rm) s = .reg j) :
    ∃ n, j = regIndex w n := by
  cases rm with
  | register n => exact ⟨n, (Loc.reg.inj h).symm⟩
  | noDisp b => cases h
  | direct a => cases h
  | disp8 b d => cases h
  | disp16 b d => cases h

/-- A register that an instruction writes is one of the instruction's width; a reg field names what mod 11 names. -/
theorem writtenLoc_eq_reg {i : Instr} {s : State} {j : RegIndex} (h : writtenLoc i s = some (.reg j)) :
    ∃ w n, widthOf i = some w ∧ j = regIndex w n := by
  have named {w : Width} {rm : RM} (hw : widthOf i = some w) (hl : some (locOf (rmPlace w rm) s) = some (.reg j)) :
      ∃ w n, widthOf i = some w ∧ j = regIndex w n := by
    obtain ⟨n, hj⟩ := locOf_rmPlace_eq_reg (Option.some.inj hl)
    exact ⟨w, n, hw, hj⟩
  cases i with
  | movRmReg w _ rm => exact named rfl h
  | movRegRm w reg _ => exact named (rm := .register reg) rfl h
  | movRegImm w reg _ => exact named (rm := .register reg) rfl h
  | addRmReg w _ rm => exact named rfl h
  | addRegRm w reg _ => exact named (rm := .register reg) rfl h
  | addRmImm _ w rm _ => exact named rfl h
  | subRmReg w _ rm => exact named rfl h
  | subRegRm w reg _ => exact named (rm := .register reg) rfl h
  | subRmImm _ w rm _ => exact named rfl h
  | cmpRmReg => cases h
  | cmpRegRm => cases h
  | cmpRmImm => cases h
  | jne => cases h

theorem writtenLoc_ne_reg {i : Instr} {w : Width} (s : State) (h : widthOf i ≠ some w) (n : RegNum) :
    writtenLoc i s ≠ some (.reg (regIndex w n)) := by
  intro hl
  obtain ⟨w', n', hw', hj⟩ := writtenLoc_eq_reg hl
  exact h (width_eq_of_regIndex_eq hj ▸ hw')

/-- Settles O16: by the frame, since no instruction writes a register of another width than its own. -/
theorem widthSeparatesRegisterCells : Obligations.WidthSeparatesRegisterCells := by
  intro i s t h
  obtain ⟨hreg, -, -, -⟩ := exec_frame h
  exact ⟨fun hw n => hreg _ (writtenLoc_ne_reg s hw n), fun hw n => hreg _ (writtenLoc_ne_reg s hw n)⟩

end Sys2Proof.Machine

/-! PROOFS. Registers, the location of an r/m operand, and a store followed by a load. -/

namespace Sys2Proof.Machine

/-- Settles O3: register selection by width, then the read of the written cell and of any other, then the frame. -/
theorem registerCellsAreIndependent : Obligations.RegisterCellsAreIndependent :=
  ⟨fun n => ⟨regIndex_word_val n, regIndex_byte_val n⟩,
    fun i _ v s => ⟨State.reg_setReg_same i v s, fun h => State.reg_setReg_ne v s h.symm⟩,
    fun i v s => ⟨State.setReg_dm i v s, State.setReg_flags i v s, State.setReg_pc i v s, State.setReg_run i v s,
      State.setReg_code i v s⟩⟩

/-! ## Effective addresses -/

/-- The exact sum of the registers of a base expression (30_encoding.md R92). -/
def baseSumNat (b : BaseRegs) (s : State) : Nat :=
  match b with
  | .bxSi => (s.reg BX).toNat + (s.reg SI).toNat
  | .bxDi => (s.reg BX).toNat + (s.reg DI).toNat
  | .bpSi => (s.reg BP).toNat + (s.reg SI).toNat
  | .bpDi => (s.reg BP).toNat + (s.reg DI).toNat
  | .si => (s.reg SI).toNat
  | .di => (s.reg DI).toNat
  | .bp => (s.reg BP).toNat
  | .bx => (s.reg BX).toNat

theorem toNat_baseSum (b : BaseRegs) (s : State) : (baseSum b s).toNat = baseSumNat b s % 65536 := by
  cases b with
  | bxSi => exact toNat_word_add _ _
  | bxDi => exact toNat_word_add _ _
  | bpSi => exact toNat_word_add _ _
  | bpDi => exact toNat_word_add _ _
  | si => exact (Nat.mod_eq_of_lt (s.reg SI).isLt).symm
  | di => exact (Nat.mod_eq_of_lt (s.reg DI).isLt).symm
  | bp => exact (Nat.mod_eq_of_lt (s.reg BP).isLt).symm
  | bx => exact (Nat.mod_eq_of_lt (s.reg BX).isLt).symm

theorem toNat_effectiveAddress_regs (b : BaseRegs) (disp : Word) (s : State) :
    (effectiveAddress (.regs b) disp s).toNat = (baseSumNat b s + disp.toNat) % 65536 := by
  rw [effectiveAddress, toNat_word_add, toNat_baseSum, Nat.mod_add_mod]

/-- A displacement read as a signed number gives the same address. -/
theorem toNat_effectiveAddress_regs_signed (b : BaseRegs) (disp : Word) (s : State) :
    ((effectiveAddress (.regs b) disp s).toNat : Int) = (baseSumNat b s + disp.toInt) % 65536 := by
  rw [toNat_effectiveAddress_regs, BitVec.toInt_eq_toNat_cond]
  split <;> omega

/-- Settles O4: the direct and the register operand by definition; for a base expression, the exact sum, to which each kind of
displacement is added. -/
theorem effectiveAddressSums : Obligations.EffectiveAddressSums := by
  intro w n d disp s x
  refine ⟨⟨rfl, rfl, rfl⟩, fun b sum hmem => ?_⟩
  obtain rfl : sum = baseSumNat b s := by
    cases b <;> simpa [x, baseSumNat] using hmem
  refine ⟨toNat_effectiveAddress_regs b disp s, ⟨_, rfl, ?noDisp⟩, ⟨_, rfl, ?disp8⟩,
    ⟨_, rfl, toNat_effectiveAddress_regs b disp s⟩⟩
  case noDisp => exact toNat_effectiveAddress_regs b 0 s
  case disp8 => rw [toNat_effectiveAddress_regs_signed, toInt_sext16]

/-! ## A store, then a load -/

/-- Settles O7: the store writes cell `a` and the load reads cell `b` after it, each by the completeness of MOV. -/
theorem storeThenLoadSeesOnlyThatCell : Obligations.StoreThenLoadSeesOnlyThatCell := by
  intro a b s
  obtain ⟨hstore, hload, -⟩ := movFormsComplete
  obtain ⟨t, ht, hta, ⟨-, hframe, -, -⟩, -, -⟩ := hstore .word 1 (.direct a) s
  obtain ⟨u, hu, hudx, -, -, -⟩ := hload .word 2 (.direct b) t
  refine ⟨t, u, ht, hu, ?_⟩
  have hdx : u.reg DX = t.memRead b := hudx
  rw [hdx]
  split
  case isTrue hab =>
    subst hab
    exact hta
  case isFalse hab =>
    refine hframe b fun he => hab ?_
    exact Loc.cell.inj (Option.some.inj he)

end Sys2Proof.Machine

/-! PROOFS. When the decoder answers UnrecognizedOpcode (40_decoder.md section 6, R135), and the opcode table (30_encoding.md
section 8) by which that is the answer for no row. -/

namespace Sys2Proof

/-! ## UnrecognizedOpcode -/

/-- The first byte is in none of the seven patterns, in the decoder's order (30_encoding.md R100). -/
abbrev NoPattern (b : Byte) : Prop :=
  b.extractLsb' 2 6 ≠ 0b100010#6 ∧ b.extractLsb' 4 4 ≠ 0b1011#4 ∧ b.extractLsb' 2 6 ≠ 0b000000#6 ∧
  b.extractLsb' 2 6 ≠ 0b001010#6 ∧ b.extractLsb' 2 6 ≠ 0b001110#6 ∧ b.extractLsb' 2 6 ≠ 0b100000#6 ∧ b ≠ 0x75#8

/-- The first byte is of format MI and a second byte is there, whose sub-opcode selects no operation (30_encoding.md R101). -/
def BadSubOpcode (b0 : Byte) (bs : List Byte) : Prop :=
  b0.extractLsb' 2 6 = 0b100000#6 ∧ ∃ (b1 : Byte) (bs1 : List Byte), bs = b1 :: bs1 ∧ subOpcode (regField b1) = none

theorem decodeMI_unrecognized {b0 : Byte} {bs : List Byte} (h : decodeMI b0 bs = .error .unrecognizedOpcode) :
    ∃ b1 bs1, bs = b1 :: bs1 ∧ subOpcode (regField b1) = none := by
  rcases decodeMI_eq_error h with ⟨-, hbad⟩ | ⟨he, -⟩
  · exact hbad
  · cases he

/-- Only the last test of the first byte and the sub-opcode of format MI fail in this way: the other formats fail only for want
of bytes. -/
theorem decode_unrecognized_iff {b0 : Byte} {bs : List Byte} :
    decode (b0 :: bs) = .error .unrecognizedOpcode ↔ NoPattern b0 ∨ BadSubOpcode b0 bs := by
  constructor
  · intro h
    simp only [decode, need_cons, bind, Except.bind] at h
    split at h
    case isTrue => cases (decodeRM_eq_error h).1
    split at h
    case isTrue => cases (decodeRI_eq_error h).1
    split at h
    case isTrue => cases (decodeRM_eq_error h).1
    split at h
    case isTrue => cases (decodeRM_eq_error h).1
    split at h
    case isTrue => cases (decodeRM_eq_error h).1
    split at h
    case isTrue hmi => exact .inr ⟨hmi, decodeMI_unrecognized h⟩
    split at h
    case isTrue => cases (decodeJ_error_stopsInside h).1
    case isFalse hmov hri hadd hsub hcmp hmi hj => exact .inl ⟨hmov, hri, hadd, hsub, hcmp, hmi, hj⟩
  · rintro (⟨hmov, hri, hadd, hsub, hcmp, hmi, hj⟩ | ⟨hmi, b1, bs1, rfl, hbad⟩)
    · simp only [decode, need_cons, bind, Except.bind, hmov, hri, hadd, hsub, hcmp, hmi, hj, if_false]
    · exact decode_unrecognized_of_subOpcode hmi hbad bs1

/-- The patterns as ranges of numbers. -/
theorem noPattern_iff_ranges (b : Byte) : NoPattern b ↔
    ¬ (b.toNat ≤ 0x03 ∨ (0x28 ≤ b.toNat ∧ b.toNat ≤ 0x2B) ∨ (0x38 ≤ b.toNat ∧ b.toNat ≤ 0x3B) ∨
      b.toNat = 0x75 ∨ (0x80 ≤ b.toNat ∧ b.toNat ≤ 0x83) ∨ (0x88 ≤ b.toNat ∧ b.toNat ≤ 0x8B) ∨
      (0xB0 ≤ b.toNat ∧ b.toNat ≤ 0xBF)) := by
  obtain ⟨hmov, hri, hadd, hsub, hcmp, hmi, hj⟩ := firstByte_ranges b
  simp only [NoPattern, ne_eq, hmov, hri, hadd, hsub, hcmp, hmi, hj, not_or]
  exact ⟨fun ⟨nmov, nri, nadd, nsub, ncmp, nmi, nj⟩ => ⟨nadd, nsub, ncmp, nj, nmi, nmov, nri⟩,
    fun ⟨nadd, nsub, ncmp, nj, nmi, nmov, nri⟩ => ⟨nmov, nri, nadd, nsub, ncmp, nmi, nj⟩⟩

theorem badSubOpcode_iff_ranges (b0 : Byte) (bs : List Byte) : BadSubOpcode b0 bs ↔
    (0x80 ≤ b0.toNat ∧ b0.toNat ≤ 0x83) ∧ ∃ (b1 : Byte) (bs1 : List Byte), bs = b1 :: bs1 ∧
      b1.toNat / 8 % 8 ≠ 0 ∧ b1.toNat / 8 % 8 ≠ 5 ∧ b1.toNat / 8 % 8 ≠ 7 := by
  obtain ⟨-, -, -, -, -, hmi, -⟩ := firstByte_ranges b0
  simp only [BadSubOpcode, hmi, subOpcode_eq_none]

/-- Settles O19: the empty buffer is only truncated; for a first byte, the two ways to fail as ranges of numbers. -/
theorem unrecognizedOpcodeExactly : Obligations.UnrecognizedOpcodeExactly := by
  intro bs
  cases bs with
  | nil => simp [decode, bind, Except.bind]
  | cons b0 bs =>
    rw [decode_unrecognized_iff, noPattern_iff_ranges, badSubOpcode_iff_ranges]
    constructor
    · exact fun h => ⟨b0, bs, rfl, h⟩
    · rintro ⟨_, _, heq, h⟩
      cases heq
      exact h

/-! ## The rows that two bytes select -/

theorem joinBytes_inj {lo hi lo' hi' : Byte} : joinBytes lo hi = joinBytes lo' hi' ↔ hi = hi' ∧ lo = lo' := by
  constructor
  · intro h
    exact ⟨by simpa using congrArg highByte h, by simpa using congrArg lowByte h⟩
  · rintro ⟨rfl, rfl⟩
    rfl

/-- A row asks each of the two bytes for the bits under its half of the mask (30_encoding.md R115). -/
theorem OpcodeRow.selects_iff_of_bytes {r : OpcodeRow} {m0 m1 p0 p1 b0 b1 : Byte} (hmask : r.mask = joinBytes m1 m0)
    (hpattern : r.pattern = joinBytes p1 p0) : r.selects b0 b1 = true ↔ b0 &&& m0 = p0 ∧ b1 &&& m1 = p1 := by
  have hand : (b0 ++ b1 : Word) &&& joinBytes m1 m0 = joinBytes (b1 &&& m1) (b0 &&& m0) := BitVec.and_append
  rw [OpcodeRow.selects, beq_iff_eq, hmask, hpattern, hand, joinBytes_inj]

theorem OpcodeRow.selects_iff {r : OpcodeRow} {b0 b1 : Byte} : r.selects b0 b1 = true ↔
    b0 &&& highByte r.mask = highByte r.pattern ∧ b1 &&& lowByte r.mask = lowByte r.pattern :=
  OpcodeRow.selects_iff_of_bytes (joinBytes_bytes _).symm (joinBytes_bytes _).symm

/-- Two rows of the table differ in a bit that both ask for. -/
theorem opcodeTable_disjoint : ∀ r ∈ opcodeTable, ∀ q ∈ opcodeTable,
    r.pattern &&& q.mask = q.pattern &&& r.mask → r = q := by decide

/-- Two bytes select at most one row. -/
theorem selected_row_unique {r q : OpcodeRow} {b0 b1 : Byte} (hr : r ∈ opcodeTable) (hq : q ∈ opcodeTable)
    (hrs : r.selects b0 b1 = true) (hqs : q.selects b0 b1 = true) : r = q := by
  rw [OpcodeRow.selects, beq_iff_eq] at hrs hqs
  refine opcodeTable_disjoint r hr q hq ?_
  rw [← hrs, ← hqs, BitVec.and_assoc, BitVec.and_assoc, BitVec.and_comm r.mask]

theorem Instr.row_mem_opcodeTable (i : Instr) : i.row ∈ opcodeTable := by
  cases i <;> simp [opcodeTable, Instr.row]

/-- A first byte in no pattern lacks the bits of every row. -/
theorem opcodeTable_firstByte_of_noPattern : ∀ b : Byte, NoPattern b → ∀ r ∈ opcodeTable,
    b &&& highByte r.mask ≠ highByte r.pattern := by decide

/-- A first byte of format MI has the bits of the rows of that format only, which ask for the three sub-opcodes. -/
theorem opcodeTable_secondByte_of_formatMI : ∀ b : Byte, b.extractLsb' 2 6 = 0b100000#6 → ∀ r ∈ opcodeTable,
    b &&& highByte r.mask = highByte r.pattern →
      lowByte r.mask = 0x38 ∧ lowByte r.pattern ∈ [0x00#8, 0x28#8, 0x38#8] := by decide

theorem regBits_of_subOpcode_none : ∀ b : Byte, subOpcode (regField b) = none →
    b &&& 0x38 ∉ [0x00#8, 0x28#8, 0x38#8] := by decide

/-- Bytes that a row selects do not fail with UnrecognizedOpcode. -/
theorem decode_ne_unrecognized_of_selects {r : OpcodeRow} {b0 b1 : Byte} (bs : List Byte) (hr : r ∈ opcodeTable)
    (hs : r.selects b0 b1 = true) : decode (b0 :: b1 :: bs) ≠ .error .unrecognizedOpcode := by
  obtain ⟨h0, h1⟩ := OpcodeRow.selects_iff.1 hs
  rw [ne_eq, decode_unrecognized_iff]
  rintro (hno | ⟨hmi, b1, bs, heq, hbad⟩)
  · exact opcodeTable_firstByte_of_noPattern b0 hno r hr h0
  · cases heq
    obtain ⟨hmask, hpattern⟩ := opcodeTable_secondByte_of_formatMI b0 hmi r hr h0
    rw [hmask] at h1
    exact regBits_of_subOpcode_none b1 hbad (h1 ▸ hpattern)

/-! ## The row of an encoding -/

theorem firstByte_and_maskRM : ∀ (o : BitVec 6) (d : Bool) (w : Width),
    firstByte o d w &&& 0xFE = firstByte o d .byte := by
  intro o d w; cases d <;> cases w <;> revert o <;> decide

theorem firstByte_and_maskMI : ∀ (o : BitVec 6) (sx : Bool) (w : Width),
    firstByte o sx w &&& 0xFC = firstByte o false .byte := by
  intro o sx w; cases sx <;> cases w <;> revert o <;> decide

theorem firstByteRI_and_mask : ∀ (w : Width) (reg : RegNum), firstByteRI w reg &&& 0xF0 = 0xB0 := by
  intro w; cases w <;> decide

theorem modeByte_and_mask : ∀ (m : BitVec 2) (g n : BitVec 3), modeByte m g n &&& 0x38 = modeByte 0 g 0 := by decide

/-- The addressing-mode byte of an operand has `g` in its middle field, whatever the operand. -/
theorem encodeRM_head (g : BitVec 3) (rm : RM) : ∃ m n ds, encodeRM g rm = modeByte m g n :: ds := by
  cases rm <;> exact ⟨_, _, _, rfl⟩

/-- A row of format RM asks for the opcode bits and d. -/
theorem selects_encodeFormRM {r : OpcodeRow} {o : BitVec 6} {d : Bool} {w : Width} {reg : RegNum} {rm : RM} {b0 b1 : Byte}
    {bs : List Byte} (hmask : r.mask = joinBytes 0 0xFE) (hpattern : r.pattern = joinBytes 0 (firstByte o d .byte))
    (h : encodeFormRM o d w reg rm = b0 :: b1 :: bs) : r.selects b0 b1 = true := by
  obtain ⟨rfl, -⟩ := List.cons.inj h
  exact (OpcodeRow.selects_iff_of_bytes hmask hpattern).2 ⟨firstByte_and_maskRM o d w, BitVec.and_zero⟩

/-- A row of format MI asks for the opcode bits and the sub-opcode. -/
theorem selects_encodeFormMI {r : OpcodeRow} {g : BitVec 3} {sx : Bool} {w : Width} {rm : RM} {v : Word} {b0 b1 : Byte}
    {bs : List Byte} (hmask : r.mask = joinBytes 0x38 0xFC) (hpattern : r.pattern = joinBytes (modeByte 0 g 0) 0x80)
    (h : encodeFormMI g sx w rm v = b0 :: b1 :: bs) : r.selects b0 b1 = true := by
  obtain ⟨m, n, ds, hrm⟩ := encodeRM_head g rm
  rw [encodeFormMI, hrm, List.cons_append, List.cons.injEq, List.cons.injEq] at h
  obtain ⟨rfl, rfl, -⟩ := h
  exact (OpcodeRow.selects_iff_of_bytes hmask hpattern).2 ⟨firstByte_and_maskMI _ sx w, modeByte_and_mask m g n⟩

/-- The row of format RI asks for the opcode bits 1011. -/
theorem selects_encodeFormRI {w : Width} {reg : RegNum} {v : Word} {b0 b1 : Byte} {bs : List Byte}
    (h : encode (.movRegImm w reg v) = b0 :: b1 :: bs) : (Instr.movRegImm w reg v).row.selects b0 b1 = true := by
  obtain ⟨rfl, -⟩ := List.cons.inj h
  exact (OpcodeRow.selects_iff_of_bytes (m0 := 0xF0) (m1 := 0) (p1 := 0) (by rfl) (by rfl)).2
    ⟨firstByteRI_and_mask w reg, BitVec.and_zero⟩

/-- The row of format J asks for the whole first byte. -/
theorem selects_encodeFormJ {d b0 b1 : Byte} {bs : List Byte} (h : encode (.jne d) = b0 :: b1 :: bs) :
    (Instr.jne d).row.selects b0 b1 = true := by
  obtain ⟨rfl, -⟩ := List.cons.inj h
  exact (OpcodeRow.selects_iff_of_bytes (m0 := 0xFF) (m1 := 0) (p0 := 0x75) (p1 := 0) (by rfl) (by rfl)).2
    ⟨by rfl, BitVec.and_zero⟩

/-- The first two bytes of an instruction's encoding select its row. -/
theorem row_selects_of_encode {i : Instr} {b0 b1 : Byte} {bs : List Byte} (h : encode i = b0 :: b1 :: bs) :
    i.row.selects b0 b1 = true := by
  cases i with
  | movRmReg => exact selects_encodeFormRM rfl (by rfl) h
  | movRegRm => exact selects_encodeFormRM rfl (by rfl) h
  | movRegImm => exact selects_encodeFormRI h
  | addRmReg => exact selects_encodeFormRM rfl (by rfl) h
  | addRegRm => exact selects_encodeFormRM rfl (by rfl) h
  | addRmImm => exact selects_encodeFormMI rfl (by rfl) h
  | subRmReg => exact selects_encodeFormRM rfl (by rfl) h
  | subRegRm => exact selects_encodeFormRM rfl (by rfl) h
  | subRmImm => exact selects_encodeFormMI rfl (by rfl) h
  | cmpRmReg => exact selects_encodeFormRM rfl (by rfl) h
  | cmpRegRm => exact selects_encodeFormRM rfl (by rfl) h
  | cmpRmImm => exact selects_encodeFormMI rfl (by rfl) h
  | jne => exact selects_encodeFormJ h

/-- Two bytes that begin an encoding, whole or with the bytes after it, select the row. -/
theorem row_selects_of_append {i : Instr} {b0 b1 : Byte} {bs rest : List Byte} (h : b0 :: b1 :: bs = encode i ++ rest) :
    i.row.selects b0 b1 = true := by
  obtain ⟨c0, c1, tail, he⟩ : ∃ c0 c1 tail, encode i = c0 :: c1 :: tail := by
    have hsize := i.size_bounds.1
    rw [← length_encode] at hsize
    match encode i, hsize with
    | c0 :: c1 :: tail, _ => exact ⟨c0, c1, tail, rfl⟩
  rw [he, List.cons_append, List.cons_append, List.cons.injEq, List.cons.injEq] at h
  obtain ⟨rfl, rfl, -⟩ := h
  exact row_selects_of_encode he

theorem row_selects_of_decode {i : Instr} {b0 b1 : Byte} {bs rest : List Byte} (h : decode (b0 :: b1 :: bs) = .ok (i, rest)) :
    i.row.selects b0 b1 = true :=
  row_selects_of_append (decode_consumes_encode h).2

/-- Two bytes that do not fail with UnrecognizedOpcode select the row of an instruction: the one decoded, or one inside whose
encoding the bytes end. -/
theorem exists_selected_row {b0 b1 : Byte} {bs : List Byte}
    (h : decode (b0 :: b1 :: bs) ≠ .error .unrecognizedOpcode) : ∃ r ∈ opcodeTable, r.selects b0 b1 = true := by
  cases hd : decode (b0 :: b1 :: bs) with
  | ok res => exact ⟨_, res.1.row_mem_opcodeTable, row_selects_of_decode hd⟩
  | error e =>
    cases e with
    | unrecognizedOpcode => exact absurd hd h
    | truncatedInput =>
      obtain ⟨i, more, -, -, he⟩ := decode_truncated_iff.1 hd
      exact ⟨_, i.row_mem_opcodeTable, row_selects_of_encode he.symm⟩

/-- Settles O23: the two bytes select the decoded instruction's row and no other; without a row they fail, and with one they do
not. -/
theorem opcodeTableSelectsTheRow : Obligations.OpcodeTableSelectsTheRow := by
  refine fun b0 b1 bs => ⟨fun i rest hd r hr => ⟨fun hs => ?unique, ?selected⟩, fun hd r hr => ?noRow, fun hno => ?failure⟩
  case unique => exact selected_row_unique hr i.row_mem_opcodeTable hs (row_selects_of_decode hd)
  case selected =>
    rintro rfl
    exact row_selects_of_decode hd
  case noRow =>
    rw [← Bool.not_eq_true]
    exact fun hs => decode_ne_unrecognized_of_selects bs hr hs hd
  case failure =>
    by_contra hd
    obtain ⟨r, hr, hs⟩ := exists_selected_row hd
    exact Bool.false_ne_true ((hno r hr).symm.trans hs)

end Sys2Proof

/-! PROOFS. Each format decodes the bytes of the spec's tables to the record of its fields (30_encoding.md sections 1 to 4,
40_decoder.md sections 3, 4 and 7). -/

namespace Sys2Proof.Machine

/-! ## Records by format -/

theorem recordOf_formRM_toRm (op : AluOp) (w : Width) (reg : RegNum) (rm : RM) :
    recordOf (formRM op false w reg rm) =
      aluRecord op (rmPlace w rm) (.place (regPlace w reg)) (2 + rm.dispBytes) := by
  cases op <;> rfl

theorem recordOf_formRM_toReg (op : AluOp) (w : Width) (reg : RegNum) (rm : RM) :
    recordOf (formRM op true w reg rm) =
      aluRecord op (regPlace w reg) (.place (rmPlace w rm)) (2 + rm.dispBytes) := by
  cases op <;> rfl

theorem recordOf_formMI {op : AluOp} {sx : Bool} {w : Width} {rm : RM} {v : Word} {i : Instr}
    (h : formMI op sx w rm v = some i) :
    recordOf i = aluRecord op (rmPlace w rm) (.immediate v) (2 + rm.dispBytes + immBytesMI sx w) := by
  cases op <;> cases h <;> rfl

/-! ## Formats RM and MI -/

/-- Settles O46: the operand bytes are the encoding of one r/m operand, which format RM reads back in both directions. -/
theorem formatRmRecords : Obligations.FormatRmRecords := by
  intro op opcode w reg bs rest p hop hbytes
  obtain ⟨rm, hwf, rfl, rfl, hlen⟩ := hbytes.exists_rm
  have hsize : 2 + rm.dispBytes = 1 + (encodeRM reg rm).length := by rw [← hlen, ← Nat.add_assoc]
  refine ⟨⟨_, decode_encodeFormRM hop false w reg rest hwf, ?toRm⟩, ⟨_, decode_encodeFormRM hop true w reg rest hwf, ?toReg⟩⟩
  case toRm => rw [recordOf_formRM_toRm, hsize]; rfl
  case toReg => rw [recordOf_formRM_toReg, hsize]; rfl

theorem subOpcode_of_mem {op : AluOp} {g : BitVec 3}
    (h : (op, g) ∈ [(AluOp.add, 0b000#3), (.sub, 0b101#3), (.cmp, 0b111#3)]) : subOpcode g = some op := by
  rw [subOpcode_eq_some]
  simpa using h

/-- Settles O47: the operand bytes and the immediate bytes are the encodings of one operand and of one value that fits, which
format MI reads back. -/
theorem formatMiRecords : Obligations.FormatMiRecords := by
  intro op sub sx w bs imm rest p v hop hbytes himm
  obtain ⟨rm, hwf, rfl, rfl, hlen⟩ := hbytes.exists_rm
  obtain ⟨hfits, rfl, hilen⟩ := himm.encodes
  have hsub := subOpcode_of_mem hop
  obtain ⟨i, hi, -, -⟩ := encode_formMI hsub sx w rm v
  refine ⟨i, decode_encodeFormMI hsub rest hi (by rw [hwf, hfits, Bool.and_self]), ?_⟩
  have hsize : 2 + rm.dispBytes + immBytesMI sx w =
      1 + (encodeRM sub rm).length + (encodeImmMI sx w v).length := by rw [← hlen, ← hilen, ← Nat.add_assoc]
  rw [recordOf_formMI hi, hsize]
  rfl

/-! ## Formats RI and J -/

/-- Settles O48: the immediate bytes are the encoding of a value that fits, which format RI reads back; the byte of format J is
the displacement itself. -/
theorem formatRiAndJRecords : Obligations.FormatRiAndJRecords := by
  refine ⟨fun w reg imm rest v himm => ?ri, fun d rest => ⟨.jne d, sext16 d, toInt_sext16 d, rfl, rfl⟩⟩
  obtain ⟨hfits, rfl, hlen⟩ := himm.encodes
  refine ⟨_, decode_encode_movRegImm reg rest hfits, ?_⟩
  rw [← hlen]
  rfl

/-! ## Register operands: both directions, and the immediates -/

/-- The addressing-mode byte of mod 11 alone spells its register. -/
theorem rmBytes_register (w : Width) (reg n : BitVec 3) :
    RmBytes w reg [(0b11#2 ++ reg ++ n : Byte)] (.register (regIndex w n)) := ⟨n, .inl ⟨rfl, rfl⟩⟩

/-- Settles O22: format RM read once with `a` in the reg field and once with `b` there. -/
theorem directionSymmetry : Obligations.DirectionSymmetry := by
  intro op opcode w a b rest hop
  obtain ⟨⟨i, hi, hri⟩, -⟩ := formatRmRecords op opcode w a _ rest _ hop (rmBytes_register w a b)
  obtain ⟨-, j, hj, hrj⟩ := formatRmRecords op opcode w b _ rest _ hop (rmBytes_register w b a)
  exact ⟨i, j, hi, hj, hri.trans hrj.symm, hri⟩

theorem modeByte_register_add : ∀ n : RegNum, modeByte 0b11#2 0b000#3 n = 0b11000#5 ++ n := by decide

theorem firstByteRI_eq_append : ∀ n : RegNum,
    firstByteRI .byte n = 0b10110#5 ++ n ∧ firstByteRI .word n = 0b10111#5 ++ n := by decide

/-- With s = 0 format MI has the immediates of format RI (30_encoding.md R97). -/
theorem ImmBytesRI.toMI {w : Width} {bs : List Byte} {v : Word} (h : ImmBytesRI w bs v) : ImmBytesMI false w bs v := by
  simpa [ImmBytesMI] using h

/-- ADD of an immediate to a register: the first byte, the addressing-mode byte of mod 11 and the immediate bytes. -/
theorem decode_add_register_imm {b0 : Byte} {sx : Bool} {w : Width} {imm : List Byte} {v : Word} (n : RegNum)
    (rest : List Byte) (hb0 : firstByte 0b100000#6 sx w = b0) (himm : ImmBytesMI sx w imm v) :
    decode (b0 :: (0b11000#5 ++ n : Byte) :: (imm ++ rest)) = .ok (.addRmImm sx w (.register n) v, rest) := by
  obtain ⟨hfits, rfl, -⟩ := himm.encodes
  rw [← hb0, ← modeByte_register_add]
  exact decode_encode (i := .addRmImm sx w (.register n) v) rest hfits

/-- MOV of an immediate to a register: the first byte and the immediate bytes. -/
theorem decode_mov_register_imm {b0 : Byte} {w : Width} {imm : List Byte} {v : Word} (n : RegNum) (rest : List Byte)
    (hb0 : firstByteRI w n = b0) (himm : ImmBytesRI w imm v) :
    decode (b0 :: (imm ++ rest)) = .ok (.movRegImm w n v, rest) := by
  obtain ⟨hfits, rfl, -⟩ := himm.encodes
  rw [← hb0]
  exact decode_encode_movRegImm n rest hfits

/-- Settles O24: the zero-extended byte, the word of two bytes and the sign-extended byte, each as the spec's table gives it. -/
theorem immediateWidening : Obligations.ImmediateWidening := by
  intro n b lo hi rest
  obtain ⟨hbyte, hword⟩ := firstByteRI_eq_append n
  have zeroExtended : ImmBytesRI .byte [b] (zext16 b) := ⟨b, rfl, toNat_zext16 b⟩
  have twoBytes : ImmBytesRI .word [lo, hi] (joinBytes lo hi) := ⟨lo, hi, rfl, toNat_joinBytes lo hi⟩
  have signExtended (w : Width) : ImmBytesMI true w [b] (sext16 b) := ⟨b, rfl, toInt_sext16 b⟩
  exact ⟨⟨_, toNat_zext16 b, decode_add_register_imm n rest rfl zeroExtended.toMI,
      decode_mov_register_imm n rest hbyte zeroExtended⟩,
    ⟨_, toNat_joinBytes lo hi, decode_add_register_imm n rest rfl twoBytes.toMI,
      decode_mov_register_imm n rest hword twoBytes⟩,
    ⟨_, toInt_sext16 b, decode_add_register_imm n rest rfl (signExtended .byte),
      decode_add_register_imm n rest rfl (signExtended .word)⟩⟩

/-! ## The spec's test vectors -/

/-- Settles O25: eight encodings written out, a first byte in no pattern, and two bytes of a three-byte encoding. -/
theorem specWordsDecode : Obligations.SpecWordsDecode :=
  ⟨rfl, rfl, rfl, rfl, rfl, rfl, rfl, rfl, rfl, rfl⟩

end Sys2Proof.Machine

/-! PROOFS. The step of a running machine: which way it goes, what RUN says of it, and how far it moves pc (44_sequencer.md
sections 1 and 4, 60_exceptions.md section 3). -/

namespace Sys2Proof.Machine

/-! ## A decoded instruction is executed -/

/-- A decoded instruction lies inside CODE. -/
theorem pc_add_size_le_len {s : State} {i : Instr} {rest : List Byte}
    (hd : decode (s.code.drop s.pc.toNat) = .ok (i, rest)) : s.pc.toNat + i.size ≤ s.len := by
  obtain ⟨-, he⟩ := decode_consumes_encode hd
  have hlen : s.code.length - s.pc.toNat = i.size + rest.length := by
    rw [← List.length_drop, he, List.length_append, length_encode]
  have hsize := i.size_bounds.1
  rw [State.len]
  omega

theorem pc_lt_len_of_decode {s : State} {i : Instr} {rest : List Byte}
    (hd : decode (s.code.drop s.pc.toNat) = .ok (i, rest)) : s.pc.toNat < s.len := by
  have hlen := pc_add_size_le_len hd
  have hsize := i.size_bounds.1
  omega

theorem step_executes_of_ready {s : State} {i : Instr} {rest : List Byte} (h : s.ready)
    (hd : decode (s.code.drop s.pc.toNat) = .ok (i, rest)) : step s = exec i s := by
  rw [step_of_ready h, runningStep_executes (pc_lt_len_of_decode hd) hd]

/-- Settles O27: the encoding at pc is read back, and the step executes what is decoded. -/
theorem stepRunsDecodedInstruction : Obligations.StepRunsDecodedInstruction := fun _ rest _ hready hwf hbytes =>
  step_executes_of_ready hready (by rw [hbytes, decode_encode rest hwf])

/-- Settles O29: the fault is taken on the state before the step, and sets RUN alone. -/
theorem decodeFaultIsPrecise : Obligations.DecodeFaultIsPrecise := by
  intro e s hready hpc hd
  refine ⟨_, step_faults_of_ready hready hpc hd, ?run, rfl, rfl, rfl, rfl, rfl⟩
  case run => cases e <;> rfl

/-! ## No step -/

theorem step_of_halted {s : State} (h : s.run = .halted) : step s = .fault .runHalted := by
  rw [step, sequencerStep, h]

theorem step_of_faulted {s : State} {c : FaultCode} (h : s.run = .faulted c) : step s = .fault (.runFaulted c) := by
  rw [step, sequencerStep, h]

/-- Settles O30: the sequencer's first question is RUN. -/
theorem endedRunHasNoNextStep : Obligations.EndedRunHasNoNextStep := fun _ =>
  ⟨step_of_halted, fun _ => step_of_faulted⟩

/-- Settles O31: with RUN = Running the sequencer's next question is LEN. -/
theorem longCodeIsRefused : Obligations.LongCodeIsRefused := by
  intro s hrun hlen
  rw [step, sequencerStep, hrun]
  exact if_pos hlen

/-! ## The outcome of a step -/

theorem exec_answers (i : Instr) (s : State) : ∃ t, exec i s = .next t := by
  rcases exec_cases i s with ⟨op, dst, src, -, he⟩ | ⟨d, -, he⟩
  · exact ⟨_, he⟩
  · exact ⟨_, he⟩

/-- Settles O32: the loop test, then the decoder, then the instruction; each way gives RUN another value. -/
theorem runningStepOutcome : Obligations.RunningStepOutcome := by
  intro s hready
  rcases Nat.lt_or_ge s.pc.toNat s.len with hpc | hpc
  · cases hd : decode (s.code.drop s.pc.toNat) with
    | error e =>
      refine ⟨_, step_faults_of_ready hready hpc hd, ?_⟩
      cases e <;> simp [faultOfDecodeError, hpc]
    | ok res =>
      obtain ⟨i, rest⟩ := res
      obtain ⟨t, ht⟩ := exec_answers i s
      have hrun : t.run = .running := (exec_keeps ht).1.trans hready.1
      exact ⟨t, (step_executes_of_ready hready hd).trans ht, by simp [hrun, hpc, ht]⟩
  · refine ⟨_, step_of_ready_of_len_le_pc hready hpc, ?_⟩
    simp [hpc, hpc.not_gt]

/-- Whatever is executed but JNE moves pc past itself. -/
theorem exec_pc_of_ne_jne {i : Instr} {s t : State} (hi : ∀ d, i ≠ .jne d) (h : exec i s = .next t) :
    t.pc = advancePc s.pc i.size := by
  rcases exec_cases i s with ⟨op, dst, src, -, he⟩ | ⟨d, rfl, -⟩
  · obtain rfl : aluStep op dst src i.size s = t := by simpa [he] using h
    exact aluStep_pc ..
  · exact absurd rfl (hi d)

/-- Settles O34: the instruction ends at LEN or before, and LEN is below 65536, so the addition does not wrap. -/
theorem sequentialAdvanceNeverWraps : Obligations.SequentialAdvanceNeverWraps := by
  intro s t i rest hready hi hd hstep
  rw [step_executes_of_ready hready hd] at hstep
  have hend : s.pc.toNat + i.size ≤ s.len := pc_add_size_le_len hd
  have hlen : s.len ≤ 65535 := hready.2
  have hpc : t.pc.toNat = s.pc.toNat + i.size := by
    rw [exec_pc_of_ne_jne hi hstep, toNat_advancePc, Nat.mod_eq_of_lt (by omega)]
  exact ⟨hpc, hpc.trans_le hend⟩

end Sys2Proof.Machine

/-! PROOFS. Runs under fuel: the taken branch to itself (43_branch.md), and the end of a run (44_sequencer.md section 4). -/

namespace Sys2Proof.Machine

/-! ## One step of a run -/

theorem runFuel_succ_of_next {s t : State} (n : Nat) (h : step s = .next t) : runFuel (n + 1) s = runFuel n t := by
  rw [runFuel, h]

theorem runRecords_succ_of_next {s t : State} (n : Nat) (h : step s = .next t) :
    runRecords (n + 1) s = s.stepRecord.toList ++ runRecords n t := by
  rw [runRecords, h]

/-- Without a next state the run stays where it is, under any fuel, and emits no record. -/
theorem run_of_no_next {s : State} (n : Nat) (h : ∀ t, step s ≠ .next t) : runFuel n s = s ∧ runRecords n s = [] := by
  cases n with
  | zero => exact ⟨rfl, rfl⟩
  | succ n =>
    rw [runFuel, runRecords]
    cases hs : step s with
    | next t => exact absurd hs (h t)
    | fault r => exact ⟨rfl, rfl⟩
    | refused r => exact ⟨rfl, rfl⟩

/-! ## A branch to itself -/

/-- The displacement -2 undoes the advance past the two bytes of JNE. -/
theorem jumpPc_advancePc_self (pc : Word) : jumpPc (advancePc pc 2) (sext16 0xFE) = pc := by
  have hcancel : BitVec.ofNat 16 2 + sext16 0xFE = 0#16 := by decide
  rw [jumpPc, advancePc, BitVec.add_assoc, hcancel, BitVec.add_zero]

theorem exec_jne_self {s : State} (h : s.flags ≠ .zero) : exec (.jne 0xFE) s = .next s := by
  rw [exec_jne, nextPc_of_ne_zero _ _ h, jumpPc_advancePc_self]
  rfl

theorem runFuel_of_step_self {s : State} (n : Nat) (h : step s = .next s) : runFuel n s = s := by
  induction n with
  | zero => rfl
  | succ n ih => rw [runFuel_succ_of_next n h, ih]

/-- Settles O35: the step gives the same state, and by induction on the fuel so does the run. -/
theorem selfBranchRunsForever : Obligations.SelfBranchRunsForever := by
  intro s rest n hready hflags hbytes
  have hd : decode (s.code.drop s.pc.toNat) = .ok (.jne 0xFE, rest) := by
    rw [hbytes]
    exact decode_encode (i := .jne 0xFE) rest rfl
  have hstep : step s = .next s := (step_executes_of_ready hready hd).trans (exec_jne_self hflags)
  exact ⟨hstep, runFuel_of_step_self n hstep⟩

/-! ## The end of a run -/

theorem no_next_of_ended {s : State} (h : s.ended) (t : State) : step s ≠ .next t := by
  intro hs
  obtain ⟨⟨hrun, -⟩, -⟩ := step_cases hs
  exact h hrun

/-- Settles O39: by induction on the fuel; where the run has ended, or has no next state, no fuel moves it. -/
theorem endedRunIsNeverResumed : Obligations.EndedRunIsNeverResumed := by
  intro s n m hended
  induction n generalizing s with
  | zero =>
    rw [Nat.zero_add]
    exact run_of_no_next m (no_next_of_ended hended)
  | succ n ih =>
    rw [Nat.add_right_comm]
    by_cases hnext : ∃ t, step s = .next t
    · obtain ⟨t, ht⟩ := hnext
      rw [runFuel_succ_of_next n ht] at hended
      obtain ⟨hstate, hrecords⟩ := ih t hended
      rw [runFuel_succ_of_next _ ht, runFuel_succ_of_next _ ht, runRecords_succ_of_next _ ht,
        runRecords_succ_of_next _ ht, hstate, hrecords]
      exact ⟨rfl, rfl⟩
    · have stays (k : Nat) := run_of_no_next k (not_exists.1 hnext)
      obtain ⟨hstate, hrecords⟩ := stays (n + 1)
      obtain ⟨hstate', hrecords'⟩ := stays (n + m + 1)
      exact ⟨hstate'.trans hstate.symm, hrecords'.trans hrecords.symm⟩

end Sys2Proof.Machine

/-! PROOFS. The step record (44_sequencer.md section 3). -/

namespace Sys2Proof.Machine

/-! ## When there is one -/

theorem nextInstr_eq_some {s : State} {i : Instr} :
    nextInstr s = some i ↔ s.ready ∧ ∃ rest, decode (s.code.drop s.pc.toNat) = .ok (i, rest) := by
  unfold nextInstr
  constructor
  · intro h
    split at h
    case isFalse => cases h
    case isTrue hc =>
      obtain ⟨hrun, hlen, -⟩ := hc
      cases hf : fetch s with
      | error e => simp [hf] at h
      | ok res =>
        obtain ⟨j, n⟩ := res
        obtain rfl : j = i := by simpa [hf] using h
        obtain ⟨rest, hd, -⟩ := fetch_eq_ok.1 hf
        exact ⟨⟨hrun, hlen⟩, rest, hd⟩
  · rintro ⟨⟨hrun, hlen⟩, rest, hd⟩
    rw [if_pos ⟨hrun, hlen, pc_lt_len_of_decode hd⟩, fetch_eq_ok.2 ⟨rest, hd, rfl⟩]
    simp

theorem State.stepRecord_eq_some {s : State} {r : StepRecord} :
    s.stepRecord = some r ↔ ∃ i t, nextInstr s = some i ∧ step s = .next t ∧ recordStep i s t = r := by
  unfold State.stepRecord
  cases nextInstr s <;> cases step s <;> simp

/-- Settles O42: a record comes only with an executed instruction, which keeps RUN = Running. -/
theorem noRecordWithoutAnInstruction : Obligations.NoRecordWithoutAnInstruction := by
  intro s h
  rw [Option.eq_none_iff_forall_ne_some]
  intro r hr
  obtain ⟨i, t, hi, ht, -⟩ := State.stepRecord_eq_some.1 hr
  obtain ⟨hready, rest, hd⟩ := nextInstr_eq_some.1 hi
  have hexec : exec i s = .next t := (step_executes_of_ready hready hd).symm.trans ht
  exact h t ht ((exec_keeps hexec).1.trans hready.1)

/-! ## The destination in it -/

@[simp] theorem locOf_setPc (p : Place) (t : Word) (s : State) : locOf p (s.setPc t) = locOf p s := by
  rcases p with i | ⟨b | _, d⟩
  · rfl
  · cases b <;> rfl
  · rfl

/-- A write to a place does not move it: a register has no address, and a memory cell is no base register
(44_sequencer.md R206). -/
@[simp] theorem locOf_writeLoc_self (p : Place) (v : Word) (s : State) :
    locOf p (writeLoc (locOf p s) v s) = locOf p s := by
  cases p with
  | register i => rfl
  | memory b d => exact locOf_memWrite _ _ v s

theorem locOf_aluStep_dst (op : AluOp) (dst : Place) (src : Operand) (n : Nat) (s : State) :
    locOf dst (aluStep op dst src n s) = locOf dst s := by
  cases op <;> simp [aluStep_mov, aluStep_add, aluStep_sub, aluStep_cmp]

theorem readLoc_of_frame_none {s t : State} (h : FrameExcept none s t) (l : Loc) : readLoc l t = readLoc l s := by
  obtain ⟨hreg, hmem, -, -⟩ := h
  cases l with
  | reg i => exact hreg i nofun
  | cell a => exact hmem a nofun

/-- No instruction moves its own destination. -/
theorem locOf_dest_of_exec {i : Instr} {p : Place} {s t : State} (h : exec i s = .next t)
    (hp : (recordOf i).operand0 = .place p) : locOf p t = locOf p s := by
  rcases exec_cases i s with ⟨op, dst, src, hrec, he⟩ | ⟨d, rfl, -⟩
  · obtain rfl : aluStep op dst src i.size s = t := by simpa [he] using h
    obtain rfl : dst = p := by simpa [hrec, aluRecord] using hp
    exact locOf_aluStep_dst op dst src i.size s
  · cases hp

theorem exec_cmp_frame {i : Instr} {s t : State} (h : exec i s = .next t) (hop : (recordOf i).op = .alu .cmp) :
    FrameExcept none s t := by
  rcases exec_cases i s with ⟨op, dst, src, hrec, he⟩ | ⟨d, rfl, -⟩
  · obtain rfl : aluStep op dst src i.size s = t := by simpa [he] using h
    obtain rfl : op = .cmp := by simpa [hrec, aluRecord] using hop
    exact aluStep_frame .cmp dst src i.size s
  · cases hop

theorem destOf_of_place {r : InstrRecord} {p : Place} (s : State) (h : r.operand0 = .place p) :
    destOf r s = some (locOf p s) := by
  rw [destOf, h]

theorem destOf_of_op_jne {i : Instr} (s : State) (h : (recordOf i).op = .jne) : destOf (recordOf i) s = none := by
  cases i <;> cases h
  rfl

/-- Settles O41: the record of the two states; its destination, which the instruction does not move, by the record's operand. -/
theorem stepRecordOfExecutedInstruction : Obligations.StepRecordOfExecutedInstruction := by
  intro s t i rest hready hd hstep
  have hexec : exec i s = .next t := (step_executes_of_ready hready hd).symm.trans hstep
  have hnext : nextInstr s = some i := nextInstr_eq_some.2 ⟨hready, rest, hd⟩
  refine ⟨recordStep i s t, State.stepRecord_eq_some.2 ⟨i, t, hnext, hstep, rfl⟩, rfl, rfl, rfl, rfl, rfl,
    fun p hp => ⟨?before, ?after, ?reread⟩, fun hop => ?cmp, fun hop => ⟨?jneBefore, ?jneAfter⟩⟩
  case before => rw [recordStep, destOf_of_place s hp]; rfl
  case after => rw [recordStep, destOf_of_place s hp]; rfl
  case reread => rw [readOperand_place, locOf_dest_of_exec hexec hp]
  case cmp =>
    have hread := readLoc_of_frame_none (exec_cmp_frame hexec hop)
    simp only [recordStep, hread]
  case jneBefore => rw [recordStep, destOf_of_op_jne s hop]; rfl
  case jneAfter => rw [recordStep, destOf_of_op_jne s hop]; rfl

end Sys2Proof.Machine

/-! PROOFS. Reset (10_state.md section 8), and the host's load of a table word (log 8, 9). -/

namespace Sys2Proof.Machine

@[simp] theorem State.reg_reset (i : RegIndex) : State.reset.reg i = 0 := by
  simp [State.reg, State.reset]

@[simp] theorem State.memRead_reset (a : Word) : State.reset.memRead a = 0 := rfl

/-- Reset on any state is the reset state with that state's CODE. -/
theorem State.reg_resetAction (s : State) (i : RegIndex) : s.resetAction.reg i = 0 := State.reg_reset i

/-- Settles O40: the registers by the replicated zero, the cells by the empty DM, the other fields by definition. -/
theorem resetLeaves : Obligations.ResetLeaves :=
  ⟨fun s => ⟨s.reg_resetAction, State.memRead_reset, rfl, rfl, rfl, rfl⟩, State.reg_reset, State.memRead_reset, rfl, rfl, rfl,
    rfl⟩

theorem decodeTableWord_eq_some {nbits w : Nat} {i : Instr} :
    decodeTableWord nbits w = some i ↔ ∃ rest, decode (tableBytes nbits w) = .ok (i, rest) := by
  unfold decodeTableWord
  cases decode (tableBytes nbits w) with
  | error e => simp
  | ok res => simp [Prod.ext_iff]

/-- A decoded instruction is decoded whatever bytes follow. -/
theorem decode_append {bs rest : List Byte} {i : Instr} (more : List Byte) (h : decode bs = .ok (i, rest)) :
    decode (bs ++ more) = .ok (i, rest ++ more) := by
  obtain ⟨hwf, rfl⟩ := decode_consumes_encode h
  rw [List.append_assoc, decode_encode _ hwf]

/-- Settles O44: the placed state is ready, with the table's bytes at pc and whatever CODE has after them. -/
theorem placedTableWordRuns : Obligations.PlacedTableWordRuns := by
  intro s nbits w i h
  obtain ⟨rest, hd⟩ := decodeTableWord_eq_some.1 h
  have hlen : (tableBytes nbits w).length ≤ Config.maxLen := by rw [length_tableBytes]; decide
  obtain ⟨hready, ⟨more, hbytes⟩, hrf, hdm, hflags⟩ := placeCode_spec s hlen
  have hfetch := decode_append more hd
  rw [← hbytes] at hfetch
  exact ⟨step_executes_of_ready hready hfetch, hrf, hdm, hflags⟩

end Sys2Proof.Machine
